-- ==== Sys2Proof/Word.lean ====
section
/-! DEFINITION. The word types of the Geocode Engine: the widths of the packet slots and of the lanes
(spec/00_scope.md R8, R11; spec/10_state.md R29, R30). -/

namespace Sys2Proof

/-- A command word, slot `CMD` (R30, R50). -/
abbrev CommandWord := BitVec 32

/-- A 64-bit slot: a `u64`, or an `f64` as its pattern (R12, R27). -/
abbrev Slot := BitVec 64

/-- A 64-bit floating-point value, carried as its binary64 pattern: `f64_bits` and `bits_f64` of R12
are both the identity. -/
abbrev F64 := BitVec 64

/-- A 32-bit coordinate lane, `LANE_BITS` of R8. -/
abbrev Lane := BitVec 32

/-- A step operand, `STEP_BITS` of R8. -/
abbrev Step := BitVec 16

/-- The `STATUS` slot (R29). -/
abbrev Status := BitVec 8

end Sys2Proof
end

