-- ==== Sys2Proof/Syntax.lean ====
section
/-! DEFINITION. The commands: one constructor per row of spec/opcode_table.json (spec/30_encoding.md R53). -/

namespace Sys2Proof

/-- The nine commands. The operands in the slots `A`, `B` and `S` are not part of the command word (R55). -/
inductive Instr where
  /-- RANGE, R70. -/
  | range
  /-- INTERLEAVE, R79. -/
  | interleave
  /-- DEINTERLEAVE, R80. -/
  | deinterleave
  /-- QUANT, R100. -/
  | quant
  /-- ENCODE, R101. -/
  | encode
  /-- DECODE, R120. -/
  | decode
  /-- DECODEC, R121. -/
  | decodec
  /-- MOVE dx, dy, R135: the directions of the odd lane (`dirx`) and the even lane (`diry`), read as signed
  integers (R54). -/
  | move (dirx diry : Int)
  /-- NEIGHBORS, R136. -/
  | neighbors
deriving DecidableEq, Repr

/-- The eight pseudo-instructions of R61. They are other names of MOVE, not commands. -/
inductive Pseudo where
  | north
  | south
  | east
  | west
  | northeast
  | northwest
  | southeast
  | southwest
deriving DecidableEq, Repr

end Sys2Proof
end

