-- ==== Sys2Proof/WellFormed.lean ====
section
/-! DEFINITION. Which instruction terms a command word can express (spec/30_encoding.md R54). -/

namespace Sys2Proof

/-- The three directions a 2-bit field expresses: 0, +1, -1 (R54). -/
def legalDirection (d : Int) : Bool := d == 0 || d == 1 || d == -1

/-- An instruction is well formed when both directions of a MOVE are legal; the other commands have no field (R51, R52). -/
def Instr.wellFormed : Instr → Bool
  | .range => true
  | .interleave => true
  | .deinterleave => true
  | .quant => true
  | .encode => true
  | .decode => true
  | .decodec => true
  | .move dirx diry => legalDirection dirx && legalDirection diry
  | .neighbors => true

end Sys2Proof
end

