-- ==== Sys2Proof/Decode.lean ====
section
/-! DEFINITION. The decoder, total on all command words (spec/30_encoding.md R50 to R58), and after it the encoder. -/

namespace Sys2Proof

/-- Why a command word is illegal: the three grounds of R57. Each is answered with `IllegalCommand` (R158). -/
inductive Reject where
  /-- The opcode is not in the table of R53. -/
  | reservedOpcode
  /-- The `zero` field is not 0 (R56). -/
  | nonzeroZeroField
  /-- A MOVE whose `dx` or `dy` is `0b10` (R54). -/
  | reservedDirection
deriving DecidableEq, Repr

/-- `opcode`, bits 7:0 of both formats (R51, R52). -/
def opcodeField (w : CommandWord) : BitVec 8 := w.extractLsb' 0 8

/-- `zero` of format G, bits 31:8 (R51). -/
def zeroFieldG (w : CommandWord) : BitVec 24 := w.extractLsb' 8 24

/-- `zero` of format M, bits 31:12 (R52). -/
def zeroFieldM (w : CommandWord) : BitVec 20 := w.extractLsb' 12 20

/-- `dx`, bits 9:8 of format M (R52). -/
def dxField (w : CommandWord) : BitVec 2 := w.extractLsb' 8 2

/-- `dy`, bits 11:10 of format M (R52). -/
def dyField (w : CommandWord) : BitVec 2 := w.extractLsb' 10 2

/-- A direction field as a signed integer, `none` for the reserved value (R54). -/
def directionOf (f : BitVec 2) : Option Int := if f = 0b10#2 then none else some f.toInt

/-- The format-G rows of the opcode map (R53). -/
def formatGRows : List (BitVec 8 × Instr) :=
  [(0x01#8, .range), (0x02#8, .interleave), (0x03#8, .deinterleave), (0x04#8, .quant), (0x05#8, .encode),
   (0x06#8, .decode), (0x07#8, .decodec), (0x09#8, .neighbors)]

/-- The opcode of format M (R53). -/
def moveOpcode : BitVec 8 := 0x08#8

/-- The format-G command of an opcode (R53). -/
def formatGCommand (op : BitVec 8) : Option Instr := (formatGRows.find? fun row => row.1 == op).map (·.2)

/-- `decode_cmd` of R58. -/
def decode (w : CommandWord) : Except Reject Instr :=
  match formatGCommand (opcodeField w) with
  | some i => if zeroFieldG w = 0 then .ok i else .error .nonzeroZeroField
  | none =>
    if opcodeField w = moveOpcode then
      if zeroFieldM w = 0 then
        match directionOf (dxField w), directionOf (dyField w) with
        | some dirx, some diry => .ok (.move dirx diry)
        | _, _ => .error .reservedDirection
      else .error .nonzeroZeroField
    else .error .reservedOpcode

/-- The instruction of a word, if it has one. -/
def decode? (w : CommandWord) : Option Instr :=
  match decode w with
  | .ok i => some i
  | .error _ => none

/-- The decoder on a row's bits, numbered as the opcode table numbers them. A command word is one 32-bit slot value,
so it has no byte order (spec/20_memory.md R41); bits at and above `nbits` are 0. -/
def decodeTableWord (nbits w : Nat) : Option Instr := decode? (BitVec.ofNat 32 (w % 2 ^ nbits))

/-- A direction as its 2-bit two's complement field (R54). -/
def directionField (d : Int) : BitVec 2 := BitVec.ofInt 2 d

/-- The opcode of an instruction (R53). -/
def opcodeOf : Instr → BitVec 8
  | .range => 0x01#8
  | .interleave => 0x02#8
  | .deinterleave => 0x03#8
  | .quant => 0x04#8
  | .encode => 0x05#8
  | .decode => 0x06#8
  | .decodec => 0x07#8
  | .move _ _ => moveOpcode
  | .neighbors => 0x09#8

/-- The bits above the opcode, from the formats of R51 and R52. -/
def upperBits : Instr → BitVec 24
  | .move dirx diry => 0#20 ++ directionField diry ++ directionField dirx
  | .range => 0
  | .interleave => 0
  | .deinterleave => 0
  | .quant => 0
  | .encode => 0
  | .decode => 0
  | .decodec => 0
  | .neighbors => 0

/-- The command word of a well-formed instruction (R51 to R54). -/
def encode (i : Instr) : CommandWord := upperBits i ++ opcodeOf i

/-- The expansion of a pseudo-instruction (R61): East and West move the "x" lane, North and South the "y" lane. -/
def expandPseudo : Pseudo → Instr
  | .north => .move 0 1
  | .south => .move 0 (-1)
  | .east => .move 1 0
  | .west => .move (-1) 0
  | .northeast => .move 1 1
  | .northwest => .move (-1) 1
  | .southeast => .move 1 (-1)
  | .southwest => .move (-1) (-1)

end Sys2Proof
end

