-- ==== Sys2Proof/Config.lean ====
section
/-! DEFINITION. What the implementation fixes (the hardwired constants of spec/10_state.md R21) and the free values:
opaque constants, which no proof can evaluate. -/

namespace Sys2Proof.Config

/-- `LAT_MIN` = -85.05112878, the value hardwired in `K[0]` (R21). -/
def latMin : F64 := 0xC0554345B1A57F00#64

/-- `LAT_MAX` = 85.05112878, the value hardwired in `K[1]` (R21). -/
def latMax : F64 := 0x40554345B1A57F00#64

/-- `LON_MIN` = -180.0, the value hardwired in `K[2]` (R21). -/
def lonMin : F64 := 0xC066800000000000#64

/-- `LON_MAX` = 180.0, the value hardwired in `K[3]` (R21). -/
def lonMax : F64 := 0x4066800000000000#64

/-- `MAX_RECOMMENDED_STEP` = 26, the value hardwired in `K[4]` (R21); advisory only (R73). -/
def maxRecommendedStep : Step := 26#16

/-- The OPEN parameter `LATENCY` (R8, R182): how many steps a request waits, once accepted, before the step that
executes it. Finite, and free to differ between commands and operand values. DESIGN CHOICE, safe: log 2. -/
opaque latency (cmd : CommandWord) (a b : Slot) (s : Step) : Nat

/-- The four operations of R12, as tags for the free NaN patterns. -/
inductive FloatOp where
  | add
  | sub
  | mul
  | div
deriving DecidableEq, Repr

/-- The sign and fraction bits of a NaN result, which R12 does not state: free for each operation and operands, those of `fsub`
apart from those of `fadd`. DESIGN CHOICE, safe: log 5.
With the hardwired domain no operation gives a NaN. -/
opaque nanPayload (op : FloatOp) (a b : F64) : Slot

/-- The lane obtained from the floor of a NaN or an infinity, which R96 does not state.
DESIGN CHOICE, safe: log 6. With the hardwired domain no such floor is taken. -/
opaque floorOfNonFinite (v : F64) : Lane

end Sys2Proof.Config
end

