-- ==== Sys2Proof/Machine/State.lean ====
section
/-! DEFINITION. The state of the Geocode Engine (spec/10_state.md), and the state right after reset. -/

namespace Sys2Proof.Machine

/-- The request packet (R30): the command word and the three operand slots. -/
structure Request where
  cmd : CommandWord
  a : Slot
  b : Slot
  s : Step
deriving DecidableEq, Repr

/-- The response packet (R29): the status and the nine result slots. -/
structure Response where
  status : Status
  rs : Step
  r0 : Slot
  r1 : Slot
  r2 : Slot
  r3 : Slot
  r4 : Slot
  r5 : Slot
  r6 : Slot
  r7 : Slot
deriving DecidableEq, Repr

/-- The constant registers `K[0]`..`K[4]` (R21). -/
structure ConstRegs where
  /-- `K[0]`, `LAT_MIN`. -/
  latMin : F64
  /-- `K[1]`, `LAT_MAX`. -/
  latMax : F64
  /-- `K[2]`, `LON_MIN`. -/
  lonMin : F64
  /-- `K[3]`, `LON_MAX`. -/
  lonMax : F64
  /-- `K[4]`, `MAX_RECOMMENDED_STEP`. -/
  maxStep : Step
deriving DecidableEq, Repr

/-- A request issued and not yet accepted, with the name of its requester (R183). -/
structure Issued where
  requester : Nat
  req : Request
deriving DecidableEq, Repr

/-- The request in progress (R20): its requester, its packet, and how many steps it still waits (R182, log 2). -/
structure InService where
  requester : Nat
  req : Request
  wait : Nat
deriving DecidableEq, Repr

/-- A response given and not yet taken, with the name of the requester it is for (R46). -/
structure Answered where
  requester : Nat
  rsp : Response
deriving DecidableEq, Repr

/-- Everything the spec gives the engine (R20): the constant registers, and the packets of the transactions not yet
over. Nothing else survives a transaction. -/
structure State where
  /-- `K[0]`..`K[4]`, hardwired (R21): no command writes them. -/
  k : ConstRegs
  /-- Requests issued and not yet accepted, oldest first (R25, R183). -/
  issued : List Issued
  /-- The request in progress, if there is one (R20). -/
  inService : Option InService
  /-- Responses not yet taken, oldest first (R46 (c)). -/
  responses : List Answered
deriving DecidableEq, Repr

/-- Nothing stops the machine with a fault: "The engine never traps, never halts, never enters a failed state" (R150).
The type has no constructor, so no step can answer one (log 15). -/
inductive Fault where
deriving DecidableEq, Repr

/-- Why a step could be refused. -/
inductive Refusal where
  /-- Raised by an arm of `exec` whose instruction has no meaning yet. Safe. No arm raises it: all nine commands have
  their meaning. -/
  | notModelled (mnemonic : String)
deriving DecidableEq, Repr

/-- The values hardwired in the constant registers (R21). -/
def hardwiredK : ConstRegs where
  latMin := Config.latMin
  latMax := Config.latMax
  lonMin := Config.lonMin
  lonMax := Config.lonMax
  maxStep := Config.maxRecommendedStep

/-- After reset the constants hold their values, no request is in progress and no response is pending (R37, R170). -/
def State.reset : State where
  k := hardwiredK
  issued := []
  inService := none
  responses := []

end Sys2Proof.Machine
end

