-- ==== Sys2Proof/Machine/Entities.lean ====
section
/-! DEFINITION. The data entities that travel in the packet slots (spec/10_state.md R28, R32 to R36). They are values,
not state. -/

namespace Sys2Proof.Machine

/-- A Code (R28): interleaved lanes and the number of bits per lane. -/
structure Code where
  bits : Slot
  step : Step
deriving DecidableEq, Repr

/-- A Range (R32). -/
structure Range where
  min : F64
  max : F64
deriving DecidableEq, Repr

/-- A Rectangle (R33): the cell a code denotes, and the code it came from. -/
structure Rectangle where
  latitude : Range
  longitude : Range
  code : Code
deriving DecidableEq, Repr

/-- A Coordinate (R34), latitude first. -/
structure Coordinate where
  latitude : F64
  longitude : F64
deriving DecidableEq, Repr

/-- A NeighborSet (R35): eight codes that share one step. -/
structure NeighborSet where
  north : Slot
  south : Slot
  east : Slot
  west : Slot
  northeast : Slot
  northwest : Slot
  southeast : Slot
  southwest : Slot
  step : Step
deriving DecidableEq, Repr

/-- The two lanes of a code (R81): the even lane holds latitude, the odd lane longitude. -/
structure Lanes where
  even : Lane
  odd : Lane
deriving DecidableEq, Repr

end Sys2Proof.Machine
end

