-- ==== Sys2Proof/Machine/Operands.lean ====
section
/-! DEFINITION. The operand forms: which bits of the request slots a command reads (spec/10_state.md R30, R31;
spec/30_encoding.md R55). No operand is sign-extended, scaled or shifted. -/

namespace Sys2Proof.Machine

/-- `x` of INTERLEAVE: bits 31:0 of `A` (R31, R79). -/
def operandX (q : Request) : Lane := q.a.extractLsb' 0 32

/-- `y` of INTERLEAVE: bits 31:0 of `B` (R31, R79). -/
def operandY (q : Request) : Lane := q.b.extractLsb' 0 32

/-- `v` of DEINTERLEAVE: all of `A` (R31, R80). -/
def operandValue (q : Request) : Slot := q.a

/-- The longitude of QUANT and ENCODE, in `A` (R31, R178). -/
def operandLon (q : Request) : F64 := q.a

/-- The latitude of QUANT and ENCODE, in `B` (R31, R178). -/
def operandLat (q : Request) : F64 := q.b

/-- The step: all 16 bits of `S`, unsigned (R55). -/
def operandStep (q : Request) : Step := q.s

/-- A Code: `bits` in `A`, `step` in `S` (R28). -/
def operandCode (q : Request) : Code where
  bits := q.a
  step := operandStep q

end Sys2Proof.Machine
end

