-- ==== Sys2Proof/Machine/Float.lean ====
section
/-! DEFINITION. Binary64 arithmetic, rounded to nearest, ties to even (spec/00_scope.md R12). A finite value is a whole
number of units of `2^-1074`; every operation computes exactly on those numbers and rounds once. -/

namespace Sys2Proof.Machine

/-- What a pattern stands for. `mag` counts units of `2^-1074`. -/
inductive FloatView where
  | nan
  | infinite (neg : Bool)
  | finite (neg : Bool) (mag : Nat)
deriving DecidableEq, Repr

/-- The units of `2^-1074` in 1. -/
def unitsPerOne : Nat := 2 ^ 1074

/-- Bit 63, the sign (R12). -/
def signOf (v : F64) : Bool := v.getLsbD 63

/-- Bits 62:52, the biased exponent (R12). -/
def exponentOf (v : F64) : Nat := (v.extractLsb' 52 11).toNat

/-- Bits 51:0, the fraction (R12). -/
def fractionOf (v : F64) : Nat := (v.extractLsb' 0 52).toNat

/-- The magnitude of a finite value, from its exponent and fraction fields: `fraction` units when the exponent field is 0,
else `(2^52 + fraction) * 2^(exponent - 1)` units. PRESUMED, the meaning of the fields is IEEE 754's (log 7). -/
def magnitudeOf (exponent fraction : Nat) : Nat :=
  if exponent = 0 then fraction else (2 ^ 52 + fraction) * 2 ^ (exponent - 1)

/-- The value a pattern stands for (R12). -/
def viewOf (v : F64) : FloatView :=
  if exponentOf v = 2047 then
    if fractionOf v = 0 then .infinite (signOf v) else .nan
  else .finite (signOf v) (magnitudeOf (exponentOf v) (fractionOf v))

/-- `n / d` rounded to an integer, to nearest, ties to even; `d` is positive. -/
def roundHalfEven (n d : Nat) : Nat :=
  if 2 * (n % d) < d then n / d
  else if d < 2 * (n % d) then n / d + 1
  else if (n / d) % 2 = 0 then n / d else n / d + 1

/-- How many low bits of the unit count a result of about `q` units drops: none below `2^53`. -/
def droppedBits (q : Nat) : Nat := q.log2 - 52

/-- The exponent and fraction fields of infinity, as one number. -/
def infinityFields : Nat := 2047 * 2 ^ 52

/-- The exponent and fraction fields, as one number, of the binary64 value nearest to `n / d` units, ties to even (R12);
infinity when that value is past the largest finite one. The fields of `m * 2^e` units, with `m` up to `2^53`, are the
number `e * 2^52 + m`: the carry of a significand that rounds up to `2^53` lands in the exponent field. -/
def roundFields (n d : Nat) : Nat :=
  let e := droppedBits (n / d)
  min (e * 2 ^ 52 + roundHalfEven n (d * 2 ^ e)) infinityFields

/-- A pattern from its sign and the number its other fields make. -/
def pack (neg : Bool) (fields : Nat) : F64 :=
  BitVec.ofNat 64 (fields + if neg then 2 ^ 63 else 0)

/-- A NaN result: the exponent field all ones, the top fraction bit set, the other bits free (log 5). -/
def nanResult (op : Config.FloatOp) (a b : F64) : F64 := 0x7FF8000000000000#64 ||| Config.nanPayload op a b

/-- The infinity of a sign. -/
def infinityOf (neg : Bool) : F64 := pack neg infinityFields

/-- A signed count of units. -/
def signedUnits (neg : Bool) (mag : Nat) : Int := if neg then -(mag : Int) else mag

/-- The rounded sum both `fadd` and `fsub` are; `nan` is the pattern it gives where it is a NaN. An exact sum of zero is
`-0.0` only when both operands are `-0.0`: PRESUMED, log 7. -/
def sumOr (nan a b : F64) : F64 :=
  match viewOf a, viewOf b with
  | .nan, _ => nan
  | _, .nan => nan
  | .infinite na, .infinite nb => if na = nb then infinityOf na else nan
  | .infinite na, .finite _ _ => infinityOf na
  | .finite _ _, .infinite nb => infinityOf nb
  | .finite na ma, .finite nb mb =>
    let sum := signedUnits na ma + signedUnits nb mb
    if sum = 0 then pack (na && nb) 0 else pack (decide (sum < 0)) (roundFields sum.natAbs 1)

/-- The value with its sign bit inverted. -/
def fneg (a : F64) : F64 := a ^^^ 0x8000000000000000#64

/-- `fadd` (R12). -/
def fadd (a b : F64) : F64 := sumOr (nanResult .add a b) a b

/-- `fsub` (R12): the sum with the negated operand, as IEEE 754 has it (PRESUMED, log 7). A NaN has free bits of its own, not
those of any `fadd` (log 5). -/
def fsub (a b : F64) : F64 := sumOr (nanResult .sub a b) a (fneg b)

/-- `fmul` (R12). -/
def fmul (a b : F64) : F64 :=
  match viewOf a, viewOf b with
  | .nan, _ => nanResult .mul a b
  | _, .nan => nanResult .mul a b
  | .infinite na, .infinite nb => infinityOf (na != nb)
  | .infinite na, .finite nb mb => if mb = 0 then nanResult .mul a b else infinityOf (na != nb)
  | .finite na ma, .infinite nb => if ma = 0 then nanResult .mul a b else infinityOf (na != nb)
  | .finite na ma, .finite nb mb => pack (na != nb) (roundFields (ma * mb) unitsPerOne)

/-- `fdiv` (R12). -/
def fdiv (a b : F64) : F64 :=
  match viewOf a, viewOf b with
  | .nan, _ => nanResult .div a b
  | _, .nan => nanResult .div a b
  | .infinite _, .infinite _ => nanResult .div a b
  | .infinite na, .finite nb _ => infinityOf (na != nb)
  | .finite na _, .infinite nb => pack (na != nb) 0
  | .finite na ma, .finite nb mb =>
    if mb = 0 then
      if ma = 0 then nanResult .div a b else infinityOf (na != nb)
    else pack (na != nb) (roundFields (ma * unitsPerOne) mb)

/-- A value in units of `2^-1074` for comparing, `none` for a NaN. An infinity stands at `2^1024`, above every finite
value; the two zeros are both 0. -/
def orderKey (v : F64) : Option Int :=
  match viewOf v with
  | .nan => none
  | .infinite neg => some (signedUnits neg (2 ^ 1024 * unitsPerOne))
  | .finite neg mag => some (signedUnits neg mag)

/-- `a < b`, the ordered comparison (R12): false when either operand is a NaN. -/
def flt (a b : F64) : Bool :=
  match orderKey a, orderKey b with
  | some x, some y => decide (x < y)
  | _, _ => false

/-- `a <= b`, the ordered comparison (R12). -/
def fle (a b : F64) : Bool :=
  match orderKey a, orderKey b with
  | some x, some y => decide (x ≤ y)
  | _, _ => false

/-- `a > b` (R12). -/
def fgt (a b : F64) : Bool := flt b a

/-- `a >= b` (R12). -/
def fge (a b : F64) : Bool := fle b a

/-- `u64_to_f64`, and `u32_to_f64` on smaller numbers (R12): exact below `2^53`. At and above it the nearest value is
taken, ties to even: PRESUMED, log 8. -/
def natToF64 (n : Nat) : F64 := pack false (roundFields (n * unitsPerOne) 1)

/-- `pow2(k)`, the value `2^k` for `0 <= k <= 32`, exact (R12): exponent field `1023 + k`, fraction 0. -/
def pow2 (k : Nat) : F64 := pack false ((1023 + k) * 2 ^ 52)

/-- The value 2.0 of R116: exponent field 1024, fraction 0. -/
def two : F64 := pack false (1024 * 2 ^ 52)

/-- `floor(v) mod 2^32` (R96): the greatest integer not above the value, then its low 32 bits. The floor of a NaN or
an infinity is a free value (log 6). -/
def floorLane (v : F64) : Lane :=
  match viewOf v with
  | .finite neg mag => BitVec.ofInt 32 (signedUnits neg mag / (unitsPerOne : Int))
  | .infinite _ => Config.floorOfNonFinite v
  | .nan => Config.floorOfNonFinite v

end Sys2Proof.Machine
end

