-- ==== Sys2Proof/Machine/Flags.lean ====
section
/-! DEFINITION. The engine has no flags (spec/10_state.md R26); the outcome of a command is its `STATUS`. This file holds
the failure kinds, their codes and the tests that decide them (spec/60_exceptions.md R150 to R160). -/

namespace Sys2Proof.Machine

/-- The failure kinds of R151. -/
inductive Failure where
  | invalidStep
  | invalidDomain
  | coordinateOutOfDomain
  | emptyCode
  | illegalCommand
deriving DecidableEq, Repr

/-- `STATUS` of a success (R151). -/
def statusOk : Status := 0#8

/-- The codes of R151. -/
def failureCode : Failure → Status
  | .invalidStep => 1#8
  | .invalidDomain => 2#8
  | .coordinateOutOfDomain => 3#8
  | .emptyCode => 4#8
  | .illegalCommand => 5#8

/-- The step test of QUANT and ENCODE: every step outside 1 to 32 is `InvalidStep` (R91, R154). -/
def newCodeStepFailure (step : Step) : Option Failure :=
  if 1 ≤ step.toNat ∧ step.toNat ≤ 32 then none else some .invalidStep

/-- The step test of DECODE, DECODEC, MOVE and NEIGHBORS: 0 is `EmptyCode`, above 32 is `InvalidStep` (R111, R133, R154). -/
def givenCodeStepFailure (step : Step) : Option Failure :=
  if step = 0 then some .emptyCode
  else if 32 < step.toNat then some .invalidStep
  else none

/-- `domain_ok` (R72). -/
def domainOk (k : ConstRegs) : Bool := fgt k.latMax k.latMin && fgt k.lonMax k.lonMin

/-- The domain test (R72, R92, R112, R156). -/
def domainFailure (k : ConstRegs) : Option Failure := if domainOk k then none else some .invalidDomain

/-- `coord_ok` (R93): both bounds inclusive, by ordered comparisons. -/
def coordOk (k : ConstRegs) (lon lat : F64) : Bool :=
  fge lon k.lonMin && fle lon k.lonMax && fge lat k.latMin && fle lat k.latMax

/-- The coordinate test (R93, R157). -/
def coordFailure (k : ConstRegs) (lon lat : F64) : Option Failure :=
  if coordOk k lon lat then none else some .coordinateOutOfDomain

/-- Of the failures that apply, the first in the order given is reported (R160). -/
def firstFailure : List (Option Failure) → Option Failure
  | [] => none
  | some e :: _ => some e
  | none :: rest => firstFailure rest

end Sys2Proof.Machine
end

