-- ==== Sys2Proof/Machine/Ops.lean ====
section
/-! DEFINITION. The operations every command shares: building a response, reporting a failure, reading the constant
registers, and answering the request in progress (spec/00_scope.md R13, spec/10_state.md R29). There is no memory
(spec/20_memory.md R40) and no exception entry or return (spec/60_exceptions.md R162, R163). -/

namespace Sys2Proof.Machine

/-- The response in which nothing is written: every slot zero (R13, R29). -/
def blankResponse : Response where
  status := 0
  rs := 0
  r0 := 0
  r1 := 0
  r2 := 0
  r3 := 0
  r4 := 0
  r5 := 0
  r6 := 0
  r7 := 0

/-- `raise <Error>` (R153): the code in `STATUS`, every other slot zero. -/
def raiseFailure (e : Failure) : Response := { blankResponse with status := failureCode e }

/-- The response of a computation: what it wrote, or the failure it raised. -/
def respondWith {α : Type} (result : Except Failure α) (write : α → Response) : Response :=
  match result with
  | .ok v => write v
  | .error e => raiseFailure e

/-- A computation behind its tests, in the order of R160. -/
def guarded {α : Type} (tests : List (Option Failure)) (v : α) : Except Failure α :=
  match firstFailure tests with
  | some e => .error e
  | none => .ok v

/-- A 32-bit lane in a 64-bit slot: bits 63:32 zero (R31). -/
def laneSlot (lane : Lane) : Slot := lane.setWidth 64

/-- The one read of the constant registers `K[0]`..`K[4]` (R21). No operation writes them. -/
def State.readK (s : State) : ConstRegs := s.k

/-- The request `p` is over: it is consumed and its response stands in the normal place in the order of responses
(R46 (c), R153). -/
def State.deliver (s : State) (p : InService) (rsp : Response) : State :=
  { s with inService := none, responses := s.responses ++ [{ requester := p.requester, rsp := rsp }] }

/-- A command's one effect: it answers the request in progress, whole and in one step (R43), and changes nothing else. With
no request in progress there is nothing to answer and nothing changes: DESIGN CHOICE, log 3. -/
def answer (s : State) (command : ConstRegs → Request → Response) : Host.Outcome State Fault Refusal :=
  match s.inService with
  | none => .next s
  | some p => .next (s.deliver p (command s.readK p.req))

end Sys2Proof.Machine
end

