-- ==== Sys2Proof/Machine/Interleaver.lean ====
section
/-! DEFINITION. The Bit Interleaver: INTERLEAVE and DEINTERLEAVE (spec/41_interleave.md R75 to R80). -/

namespace Sys2Proof.Machine

/-- The first `n` rounds of the loop of `spread` (R75): bit `i` of `a` at bit `2i`. -/
def spreadLow (a : Lane) : Nat → Slot
  | 0 => 0
  | n + 1 => spreadLow a n ||| (if a.getLsbD n then 1#64 <<< (2 * n) else 0)

/-- `spread` (R75): bit `i` at bit `2i`, zero at every odd position. -/
def spread (a : Lane) : Slot := spreadLow a 32

/-- `interleave` (R75): `x` in the even positions, `y` in the odd ones. -/
def interleave (x y : Lane) : Slot := spread x ||| (spread y <<< 1)

/-- The first `n` rounds of the loop of `squash` (R76): bit `2i` of `w` at bit `i`. -/
def squashLow (w : Slot) : Nat → Lane
  | 0 => 0
  | n + 1 => squashLow w n ||| (if w.getLsbD (2 * n) then 1#32 <<< n else 0)

/-- `squash` (R76): the even positions gathered, the odd ones dropped. -/
def squash (w : Slot) : Lane := squashLow w 32

/-- `deinterleave` (R76): the even lane and the odd lane. -/
def deinterleave (v : Slot) : Lanes where
  even := squash v
  odd := squash (v >>> 1)

/-- One round of the shift-and-mask forms (R78). -/
def shiftMaskLeft (shift : Nat) (mask a : Slot) : Slot := (a ||| (a <<< shift)) &&& mask

/-- One round of the gathering form (R78). -/
def shiftMaskRight (shift : Nat) (mask w : Slot) : Slot := (w ||| (w >>> shift)) &&& mask

/-- The five rounds of R78, the software form of `spread`. No command uses it; a statement says it is equal. -/
def spreadMagic (a : Lane) : Slot :=
  shiftMaskLeft 1 0x5555555555555555#64 (shiftMaskLeft 2 0x3333333333333333#64
    (shiftMaskLeft 4 0x0F0F0F0F0F0F0F0F#64 (shiftMaskLeft 8 0x00FF00FF00FF00FF#64
      (shiftMaskLeft 16 0x0000FFFF0000FFFF#64 (a.setWidth 64)))))

/-- `interleave_magic` (R78). -/
def interleaveMagic (x y : Lane) : Slot := spreadMagic x ||| (spreadMagic y <<< 1)

/-- The six rounds of R78, the software form of `squash`; the first has shift 0 and only masks. -/
def squashMagic (w : Slot) : Slot :=
  shiftMaskRight 16 0x00000000FFFFFFFF#64 (shiftMaskRight 8 0x0000FFFF0000FFFF#64
    (shiftMaskRight 4 0x00FF00FF00FF00FF#64 (shiftMaskRight 2 0x0F0F0F0F0F0F0F0F#64
      (shiftMaskRight 1 0x3333333333333333#64 (shiftMaskRight 0 0x5555555555555555#64 w)))))

/-- `deinterleave_magic` (R78). -/
def deinterleaveMagic (v : Slot) : Lanes where
  even := (squashMagic v).extractLsb' 0 32
  odd := (squashMagic (v >>> 1)).extractLsb' 0 32

/-- The response of INTERLEAVE (R79). -/
def interleaveResponse (_ : ConstRegs) (q : Request) : Response :=
  { blankResponse with status := statusOk, r0 := interleave (operandX q) (operandY q) }

/-- INTERLEAVE (R79). -/
def execInterleave (s : State) : Host.Outcome State Fault Refusal := answer s interleaveResponse

/-- The response of DEINTERLEAVE (R80). -/
def deinterleaveResponse (_ : ConstRegs) (q : Request) : Response :=
  { blankResponse with
    status := statusOk
    r0 := laneSlot (deinterleave (operandValue q)).even
    r1 := laneSlot (deinterleave (operandValue q)).odd }

/-- DEINTERLEAVE (R80). -/
def execDeinterleave (s : State) : Host.Outcome State Fault Refusal := answer s deinterleaveResponse

end Sys2Proof.Machine
end

