-- ==== Sys2Proof/Machine/Encoder.lean ====
section
/-! DEFINITION. The coordinate quantizer and the Encoder: QUANT and ENCODE (spec/42_encode.md R90 to R101). -/

namespace Sys2Proof.Machine

/-- `LAT_SPAN` (R22). -/
def latSpan (k : ConstRegs) : F64 := fsub k.latMax k.latMin

/-- `LON_SPAN` (R22). -/
def lonSpan (k : ConstRegs) : F64 := fsub k.lonMax k.lonMin

/-- An offset (R94): a subtraction, then a division. -/
def offset (v dmin dspan : F64) : F64 := fdiv (fsub v dmin) dspan

/-- The scaled offset (R95). -/
def scaled (v dmin dspan : F64) (step : Step) : F64 := fmul (offset v dmin dspan) (pow2 step.toNat)

/-- One axis of the quantizer (R94 to R96): subtract, divide, scale, floor, keep the low 32 bits. -/
def quantizeAxis (v dmin dspan : F64) (step : Step) : Lane := floorLane (scaled v dmin dspan step)

/-- `quantize` (R100), with its tests in the order of R160. -/
def quantize (k : ConstRegs) (lon lat : F64) (step : Step) : Except Failure Lanes :=
  guarded [newCodeStepFailure step, domainFailure k, coordFailure k lon lat]
    { even := quantizeAxis lat k.latMin (latSpan k) step
      odd := quantizeAxis lon k.lonMin (lonSpan k) step }

/-- The response of QUANT (R100). -/
def quantResponse (k : ConstRegs) (q : Request) : Response :=
  respondWith (quantize k (operandLon q) (operandLat q) (operandStep q)) fun lanes =>
    { blankResponse with
      status := statusOk
      r0 := laneSlot lanes.even
      r1 := laneSlot lanes.odd
      rs := operandStep q }

/-- QUANT (R100). -/
def execQuant (s : State) : Host.Outcome State Fault Refusal := answer s quantResponse

/-- The code of two lanes (R97): latitude in the even positions, longitude in the odd ones. -/
def codeOfLanes (lanes : Lanes) (step : Step) : Code where
  bits := interleave lanes.even lanes.odd
  step := step

/-- The response of ENCODE (R101). -/
def encodeResponse (k : ConstRegs) (q : Request) : Response :=
  respondWith (quantize k (operandLon q) (operandLat q) (operandStep q)) fun lanes =>
    { blankResponse with
      status := statusOk
      r0 := (codeOfLanes lanes (operandStep q)).bits
      rs := (codeOfLanes lanes (operandStep q)).step }

/-- ENCODE (R101). -/
def execEncode (s : State) : Host.Outcome State Fault Refusal := answer s encodeResponse

end Sys2Proof.Machine
end

