-- ==== Sys2Proof/Machine/Decoder.lean ====
section
/-! DEFINITION. The Decoder, the dequantizer and the centroid: DECODE and DECODEC (spec/43_decode.md R110 to R121). -/

namespace Sys2Proof.Machine

/-- One bound of a cell (R114): divide by `2^step`, multiply by the span, add the domain minimum. -/
def dequantizeBound (n : Nat) (step : Step) (dmin dspan : F64) : F64 :=
  fadd dmin (fmul (fdiv (natToF64 n) (pow2 step.toNat)) dspan)

/-- `dequantize` (R114, R120). `fp + 1` does not wrap at 32 bits (R115). -/
def dequantize (fp : Lane) (step : Step) (dmin dspan : F64) : Range where
  min := dequantizeBound fp.toNat step dmin dspan
  max := dequantizeBound (fp.toNat + 1) step dmin dspan

/-- `decode` of R120: the cell of a code, with its tests in the order of R160. All 64 bits of the code are used (R117). -/
def decodeCell (k : ConstRegs) (code : Code) : Except Failure Rectangle :=
  guarded [givenCodeStepFailure code.step, domainFailure k]
    { latitude := dequantize (deinterleave code.bits).even code.step k.latMin (latSpan k)
      longitude := dequantize (deinterleave code.bits).odd code.step k.lonMin (lonSpan k)
      code := code }

/-- The response of DECODE (R120). -/
def decodeResponse (k : ConstRegs) (q : Request) : Response :=
  respondWith (decodeCell k (operandCode q)) fun cell =>
    { blankResponse with
      status := statusOk
      r0 := cell.latitude.min
      r1 := cell.latitude.max
      r2 := cell.longitude.min
      r3 := cell.longitude.max
      r4 := cell.code.bits
      rs := cell.code.step }

/-- DECODE (R120). -/
def execDecode (s : State) : Host.Outcome State Fault Refusal := answer s decodeResponse

/-- The midpoint of a Range (R116): one addition, then a division by 2.0. -/
def midpoint (r : Range) : F64 := fdiv (fadd r.min r.max) two

/-- `centroid` (R116). -/
def centroid (cell : Rectangle) : Coordinate where
  latitude := midpoint cell.latitude
  longitude := midpoint cell.longitude

/-- The response of DECODEC (R121): a Coordinate and no Code. -/
def decodecResponse (k : ConstRegs) (q : Request) : Response :=
  respondWith (decodeCell k (operandCode q)) fun cell =>
    { blankResponse with
      status := statusOk
      r0 := (centroid cell).latitude
      r1 := (centroid cell).longitude }

/-- DECODEC (R121). -/
def execDecodec (s : State) : Host.Outcome State Fault Refusal := answer s decodecResponse

end Sys2Proof.Machine
end

