-- ==== Sys2Proof/Machine/Neighbor.lean ====
section
/-! DEFINITION. The Neighbor Calculator: MOVE and NEIGHBORS (spec/44_neighbor.md R125 to R136). Its "x" lane is the odd
lane, longitude, and its "y" lane the even lane, latitude (R126, R175). -/

namespace Sys2Proof.Machine

/-- `ODD_LANE_MASK` (R9, R125). -/
def oddMask : Slot := 0xAAAAAAAAAAAAAAAA#64

/-- `EVEN_LANE_MASK` (R9, R125). -/
def evenMask : Slot := 0x5555555555555555#64

/-- `ODD_W(s)` (R125): the odd positions of the window of `s`. -/
def oddWindow (s : Nat) : Slot := oddMask >>> (64 - 2 * s)

/-- `EVEN_W(s)` (R125): the even positions of the window of `s`. -/
def evenWindow (s : Nat) : Slot := evenMask >>> (64 - 2 * s)

/-- The lane step both moves share (R127, R128): the target lane `lane`, the other lane's windowed mask `zz`, and the sign
of the direction. Additions and subtractions wrap modulo `2^64`. -/
def stepLane (lane zz : Slot) (d : Int) : Slot :=
  if 0 < d then lane + (zz + 1) else (lane ||| zz) - (zz + 1)

/-- `move_x` (R127): the odd lane, East and West. -/
def moveX (bits : Slot) (s : Nat) (d : Int) : Slot :=
  if d = 0 then bits
  else (stepLane (bits &&& oddWindow s) (evenWindow s) d &&& oddWindow s) ||| (bits &&& evenWindow s)

/-- `move_y` (R128): the even lane, North and South. -/
def moveY (bits : Slot) (s : Nat) (d : Int) : Slot :=
  if d = 0 then bits
  else (bits &&& oddWindow s) ||| (stepLane (bits &&& evenWindow s) (oddWindow s) d &&& evenWindow s)

/-- The "x" lane, then the "y" lane (R135). -/
def moveLanes (code : Code) (dirx diry : Int) : Slot :=
  moveY (moveX code.bits code.step.toNat dirx) code.step.toNat diry

/-- `move` (R135). No domain and no coordinate is tested (R133). -/
def moveCode (code : Code) (dirx diry : Int) : Except Failure Code :=
  guarded [givenCodeStepFailure code.step] { bits := moveLanes code dirx diry, step := code.step }

/-- The response of MOVE (R135). -/
def moveResponse (dirx diry : Int) (_ : ConstRegs) (q : Request) : Response :=
  respondWith (moveCode (operandCode q) dirx diry) fun code =>
    { blankResponse with status := statusOk, r0 := code.bits, rs := code.step }

/-- MOVE (R135). Only the sign of a direction matters (R131, log 13). -/
def execMove (dirx diry : Int) (s : State) : Host.Outcome State Fault Refusal := answer s (moveResponse dirx diry)

/-- `neighbors` (R136): eight moves of the same, unaltered code (R36). -/
def neighborSet (code : Code) : Except Failure NeighborSet :=
  guarded [givenCodeStepFailure code.step]
    { north := moveLanes code 0 1
      south := moveLanes code 0 (-1)
      east := moveLanes code 1 0
      west := moveLanes code (-1) 0
      northeast := moveLanes code 1 1
      northwest := moveLanes code (-1) 1
      southeast := moveLanes code 1 (-1)
      southwest := moveLanes code (-1) (-1)
      step := code.step }

/-- The response of NEIGHBORS (R136): N, S, E, W, NE, NW, SE, SW. -/
def neighborsResponse (_ : ConstRegs) (q : Request) : Response :=
  respondWith (neighborSet (operandCode q)) fun set =>
    { status := statusOk
      rs := set.step
      r0 := set.north
      r1 := set.south
      r2 := set.east
      r3 := set.west
      r4 := set.northeast
      r5 := set.northwest
      r6 := set.southeast
      r7 := set.southwest }

/-- NEIGHBORS (R136). -/
def execNeighbors (s : State) : Host.Outcome State Fault Refusal := answer s neighborsResponse

end Sys2Proof.Machine
end

