-- ==== Sys2Proof/Machine/RangeProvider.lean ====
section
/-! DEFINITION. The Range Provider: RANGE (spec/40_range.md R70). -/

namespace Sys2Proof.Machine

/-- The domain constants (R70). -/
def rangeResponse (k : ConstRegs) (_ : Request) : Response :=
  { blankResponse with
    status := statusOk
    r0 := k.latMin
    r1 := k.latMax
    r2 := k.lonMin
    r3 := k.lonMax
    rs := k.maxStep }

/-- RANGE (R70). -/
def execRange (s : State) : Host.Outcome State Fault Refusal := answer s rangeResponse

end Sys2Proof.Machine
end

