-- ==== Sys2Proof/Machine/Dispatch.lean ====
section
/-! DEFINITION. One arm per command of spec/opcode_table.json. -/

namespace Sys2Proof.Machine

def exec (i : Instr) (s : State) : Host.Outcome State Fault Refusal :=
  match i with
  | .range => Sys2Proof.Machine.execRange s
  | .interleave => Sys2Proof.Machine.execInterleave s
  | .deinterleave => Sys2Proof.Machine.execDeinterleave s
  | .quant => Sys2Proof.Machine.execQuant s
  | .encode => Sys2Proof.Machine.execEncode s
  | .decode => Sys2Proof.Machine.execDecode s
  | .decodec => Sys2Proof.Machine.execDecodec s
  | .move dirx diry => Sys2Proof.Machine.execMove dirx diry s
  | .neighbors => Sys2Proof.Machine.execNeighbors s

end Sys2Proof.Machine
end

