-- ==== Sys2Proof/Machine/Engine.lean ====
section
/-! DEFINITION. The engine's side of a transaction: accepting a request, waiting, and executing its command
(spec/00_scope.md R4, R5; spec/70_reset_and_hazards.md R182). -/

namespace Sys2Proof.Machine

/-- The latency of a request (R182): the OPEN parameter `LATENCY`, log 2. -/
def latencyOf (q : Request) : Nat := Config.latency q.cmd q.a q.b q.s

/-- The engine accepts the oldest request issued (R25, R46 (c); arbitration between requesters: DESIGN CHOICE, log 1). With
none issued it stays idle (R170, R173; log 3). -/
def acceptNext (s : State) : State :=
  match s.issued with
  | [] => s
  | w :: rest =>
    { s with
      issued := rest
      inService := some { requester := w.requester, req := w.req, wait := latencyOf w.req } }

/-- One step of the latency of the request in progress goes by (R182, log 2). -/
def waitOne (s : State) (p : InService) (wait : Nat) : State := { s with inService := some { p with wait := wait } }

/-- The response to an illegal command word (R57, R158): `IllegalCommand`, whatever the operand slots hold. -/
def illegalResponse (_ : ConstRegs) (_ : Request) : Response := raiseFailure .illegalCommand

/-- The command of the request in progress is decoded and executed (R4, R58); an illegal word executes no operation (R57). -/
def serve (s : State) (p : InService) : Host.Outcome State Fault Refusal :=
  match decode p.req.cmd with
  | .ok i => exec i s
  | .error _ => answer s illegalResponse

/-- A request whose command word is `w` and whose operand slots are those of the request in progress, or zero (log 11). -/
def requestOfWord (s : State) (w : CommandWord) : InService :=
  match s.inService with
  | some p => { p with req := { p.req with cmd := w }, wait := 0 }
  | none => { requester := 0, req := { cmd := w, a := 0, b := 0, s := 0 }, wait := 0 }

end Sys2Proof.Machine
end

