-- ==== Sys2Proof/Machine/Step.lean ====
section
/-! DEFINITION. One step of the engine (spec/00_scope.md R5). -/

namespace Sys2Proof.Machine

/-- One step: accept a request, wait, or execute the command in progress. -/
def step (s : State) : Host.Outcome State Fault Refusal :=
  match s.inService with
  | none => .next (acceptNext s)
  | some p =>
    match p.wait with
    | 0 => serve s p
    | n + 1 => .next (waitOne s p n)

/-- The engine does not fetch (spec/10_state.md R25): a command word arrives with a request. This puts a request with the
command word `w` in progress, its latency over, so that the next step executes it (log 11). -/
def State.withFetchWord (s : State) (nbits w : Nat) : State :=
  { s with inService := some (requestOfWord s (BitVec.ofNat 32 (w % 2 ^ nbits))) }

end Sys2Proof.Machine
end

