-- ==== Sys2Proof/Machine/Port.lean ====
section
/-! DEFINITION. The layout of the packets in bytes that spec/92_eei_decisions.md D27 suggests for the OPEN parameter
`PORT_SERIALISATION`: little-endian within each slot, the slots in the order of R29 and R30. The engine's rules do not
depend on it and no other file uses it (spec/20_memory.md R41, R44; log 12). -/

namespace Sys2Proof.Machine

/-- The low `n` bytes of a number, least significant first. -/
def littleEndian : Nat → Nat → List (BitVec 8)
  | 0, _ => []
  | n + 1, v => BitVec.ofNat 8 v :: littleEndian n (v / 256)

/-- The number whose bytes are given, least significant first. -/
def fromLittleEndian : List (BitVec 8) → Nat
  | [] => 0
  | b :: rest => b.toNat + 256 * fromLittleEndian rest

/-- The number in `n` bytes of a packet, from the byte `at_` on. -/
def slotAt (bytes : List (BitVec 8)) (at_ n : Nat) : Nat := fromLittleEndian ((bytes.drop at_).take n)

/-- `CMD`, `A`, `B`, `S` (R30): 22 bytes. -/
def requestBytes (q : Request) : List (BitVec 8) :=
  littleEndian 4 q.cmd.toNat ++ littleEndian 8 q.a.toNat ++ littleEndian 8 q.b.toNat ++ littleEndian 2 q.s.toNat

/-- The request whose bytes are given. -/
def requestOfBytes (bytes : List (BitVec 8)) : Option Request :=
  if bytes.length = 22 then
    some { cmd := BitVec.ofNat 32 (slotAt bytes 0 4)
           a := BitVec.ofNat 64 (slotAt bytes 4 8)
           b := BitVec.ofNat 64 (slotAt bytes 12 8)
           s := BitVec.ofNat 16 (slotAt bytes 20 2) }
  else none

/-- `STATUS`, `RS`, `R0`..`R7` (R29): 67 bytes. -/
def responseBytes (r : Response) : List (BitVec 8) :=
  littleEndian 1 r.status.toNat ++ littleEndian 2 r.rs.toNat ++
    ([r.r0, r.r1, r.r2, r.r3, r.r4, r.r5, r.r6, r.r7].flatMap fun v => littleEndian 8 v.toNat)

/-- The response whose bytes are given. -/
def responseOfBytes (bytes : List (BitVec 8)) : Option Response :=
  if bytes.length = 67 then
    some { status := BitVec.ofNat 8 (slotAt bytes 0 1)
           rs := BitVec.ofNat 16 (slotAt bytes 1 2)
           r0 := BitVec.ofNat 64 (slotAt bytes 3 8)
           r1 := BitVec.ofNat 64 (slotAt bytes 11 8)
           r2 := BitVec.ofNat 64 (slotAt bytes 19 8)
           r3 := BitVec.ofNat 64 (slotAt bytes 27 8)
           r4 := BitVec.ofNat 64 (slotAt bytes 35 8)
           r5 := BitVec.ofNat 64 (slotAt bytes 43 8)
           r6 := BitVec.ofNat 64 (slotAt bytes 51 8)
           r7 := BitVec.ofNat 64 (slotAt bytes 59 8) }
  else none

end Sys2Proof.Machine
end

