-- ==== Sys2Proof/Machine/Respond.lean ====
section
/-! DEFINITION. The engine as one function from a request to its response (spec/00_scope.md R4, R5:
`exec : Request -> Response`). The statements about runs are made in its terms. -/

namespace Sys2Proof.Machine

/-- The response of a command to a request. -/
def commandResponse (i : Instr) (k : ConstRegs) (q : Request) : Response :=
  match i with
  | .range => rangeResponse k q
  | .interleave => interleaveResponse k q
  | .deinterleave => deinterleaveResponse k q
  | .quant => quantResponse k q
  | .encode => encodeResponse k q
  | .decode => decodeResponse k q
  | .decodec => decodecResponse k q
  | .move dirx diry => moveResponse dirx diry k q
  | .neighbors => neighborsResponse k q

/-- The response to a request: that of its command, or `IllegalCommand` (R57). -/
def respond (k : ConstRegs) (q : Request) : Response :=
  match decode q.cmd with
  | .ok i => commandResponse i k q
  | .error _ => illegalResponse k q

end Sys2Proof.Machine
end

