-- ==== Sys2Proof/Machine/System.lean ====
section
/-! DEFINITION. The engine among its requesters (spec/00_scope.md R5, spec/20_memory.md R46,
spec/70_reset_and_hazards.md R170, R171, R183): the moves that reach it from outside, and runs in which they are
interleaved with its steps in any way. -/

namespace Sys2Proof.Machine

/-- A requester issues a request (R183), at any time, legal or not. -/
def State.issue (s : State) (requester : Nat) (q : Request) : State :=
  { s with issued := s.issued ++ [{ requester := requester, req := q }] }

/-- Whether a response is for a requester. -/
def isFor (requester : Nat) (a : Answered) : Bool := a.requester == requester

/-- The oldest response a requester has not taken (R46 (c)). -/
def State.nextResponse (s : State) (requester : Nat) : Option Response :=
  (s.responses.find? (isFor requester)).map (·.rsp)

/-- A requester takes its oldest response, if there is one (R46 (c)). -/
def State.collect (s : State) (requester : Nat) : State :=
  { s with responses := s.responses.eraseP (isFor requester) }

/-- Reset is asserted (R170, R171): whatever was issued, in progress or pending is discarded (log 10). -/
def State.assertReset (_ : State) : State := State.reset

/-- The state after a step. No step stops (R150), so the last two cases do not arise. -/
def State.afterStep (s : State) : State :=
  match step s with
  | .next t => t
  | .fault _ => s
  | .refused _ => s

/-- What can happen next: a step of the engine, or a move from outside. -/
inductive Move where
  | engine
  | issue (requester : Nat) (q : Request)
  | collect (requester : Nat)
  | assertReset
deriving DecidableEq, Repr

/-- The state after a move. -/
def State.afterMove (s : State) : Move → State
  | .engine => s.afterStep
  | .issue requester q => s.issue requester q
  | .collect requester => s.collect requester
  | .assertReset => s.assertReset

/-- The state after a list of moves. -/
def runMoves : List Move → State → State
  | [], s => s
  | m :: rest, s => runMoves rest (s.afterMove m)

/-- What one move hands to a requester. -/
def handedTo (requester : Nat) (s : State) : Move → List Response
  | .collect r => if r = requester then (s.nextResponse requester).toList else []
  | .engine => []
  | .issue _ _ => []
  | .assertReset => []

/-- The responses a requester takes in a run, in order. -/
def collectedBy (requester : Nat) : List Move → State → List Response
  | [], _ => []
  | m :: rest, s => handedTo requester s m ++ collectedBy requester rest (s.afterMove m)

/-- The request one move issues for a requester. -/
def issuedInMove (requester : Nat) : Move → List Request
  | .issue r q => if r = requester then [q] else []
  | .engine => []
  | .collect _ => []
  | .assertReset => []

/-- The requests a requester issues in a run, in order. -/
def issuedBy (requester : Nat) (moves : List Move) : List Request := moves.flatMap (issuedInMove requester)

end Sys2Proof.Machine
end

