-- ==== Sys2Proof/Safety.lean ====
section
/-! DEFINITION. What counts as a safe state and a safe run, in the terms the statements use, and the meaning of a binary64
pattern as an exact rational, written apart from the arithmetic of Machine/Float.lean. -/

namespace Sys2Proof.Machine

/-- The request `p` is in progress and its latency is over: the next step executes it. -/
def Serving (s : State) (p : InService) : Prop := s.inService = some p ∧ p.wait = 0

/-- `t` is `s` with the request `p` answered by `rsp` and nothing else changed: the constant registers, the requests not yet
accepted and the responses already given stay, and exactly one response is added, for the requester of `p`
(R20, R36, R43, R46). -/
def AnsweredWith (s : State) (p : InService) (rsp : Response) (t : State) : Prop :=
  t.k = s.k ∧ t.issued = s.issued ∧ t.inService = none ∧
    t.responses = s.responses ++ [{ requester := p.requester, rsp := rsp }]

/-- The response of a failure of code `status` (R29, R153). -/
def failureResponse (status : Status) : Response :=
  { status := status, rs := 0, r0 := 0, r1 := 0, r2 := 0, r3 := 0, r4 := 0, r5 := 0, r6 := 0, r7 := 0 }

/-- A response the spec allows (R29, R151): a status from 0 to 5, and no result beside a failure. -/
def LawfulResponse (r : Response) : Prop := r.status.toNat ≤ 5 ∧ (r.status ≠ 0 → r = failureResponse r.status)

/-- The invariant of the machine: the constant registers hold their values (R21, R170), and every response not yet taken is
lawful and reports no `InvalidDomain`, which this hardware cannot report (R72). -/
def SafeState (s : State) : Prop :=
  s.k = hardwiredK ∧ ∀ a ∈ s.responses, LawfulResponse a.rsp ∧ a.rsp.status ≠ 2

/-- A legal step (R91). -/
def LegalStep (step : Step) : Prop := 1 ≤ step.toNat ∧ step.toNat ≤ 32

/-- A canonical code: a legal step and no bit above the window (spec/00_scope.md, glossary). -/
def CanonicalCode (bits : Slot) (step : Step) : Prop := LegalStep step ∧ bits.toNat < 4 ^ step.toNat

/-- Every response a requester has still to get, in order: those given and not yet taken, the one in progress, and those of
the requests not yet accepted (R46 (c)). -/
def owed (requester : Nat) (s : State) : List Response :=
  (s.responses.filter (isFor requester)).map (·.rsp) ++
    ((s.inService.toList.filter (·.requester == requester)).map (fun p => respond s.k p.req) ++
      (s.issued.filter (·.requester == requester)).map (fun w => respond s.k w.req))

/-- The steps until the engine has answered everything issued: one to execute a request after its waits, and one more to
accept it where it is not accepted yet (R182). -/
def workLeft (s : State) : Nat :=
  (s.inService.toList.map (fun p => p.wait + 1)).sum + (s.issued.map (fun w => latencyOf w.req + 2)).sum

/-- A run in which reset is not asserted. -/
def NoReset (moves : List Move) : Prop := Move.assertReset ∉ moves

/-- The operand bits a command reads are the same in two requests (R31). -/
def SameOperands (i : Instr) (q q' : Request) : Prop :=
  match i with
  | .range => True
  | .interleave => q.a.toNat % 2 ^ 32 = q'.a.toNat % 2 ^ 32 ∧ q.b.toNat % 2 ^ 32 = q'.b.toNat % 2 ^ 32
  | .deinterleave => q.a = q'.a
  | .quant => q.a = q'.a ∧ q.b = q'.b ∧ q.s = q'.s
  | .encode => q.a = q'.a ∧ q.b = q'.b ∧ q.s = q'.s
  | .decode => q.a = q'.a ∧ q.s = q'.s
  | .decodec => q.a = q'.a ∧ q.s = q'.s
  | .move _ _ => q.a = q'.a ∧ q.s = q'.s
  | .neighbors => q.a = q'.a ∧ q.s = q'.s

/-- The biased exponent of a pattern, bits 62:52 (R12). -/
def biasedExponent (v : F64) : Nat := v.toNat / 2 ^ 52 % 2048

/-- The fraction of a pattern, bits 51:0 (R12). -/
def fractionField (v : F64) : Nat := v.toNat % 2 ^ 52

/-- A pattern that is neither a NaN nor an infinity. -/
def IsFinite (v : F64) : Prop := biasedExponent v ≠ 2047

/-- A pattern that is a NaN. -/
def IsNaN (v : F64) : Prop := biasedExponent v = 2047 ∧ fractionField v ≠ 0

/-- The exact value of a finite pattern (R12): `±fraction * 2^-1074` when the exponent field is 0, else
`±(2^52 + fraction) * 2^(exponent - 1075)`. -/
def f64Value (v : F64) : ℚ :=
  (if 2 ^ 63 ≤ v.toNat then -1 else 1) *
    (if biasedExponent v = 0 then (fractionField v : ℚ) / 2 ^ 1074
     else ((2 ^ 52 + fractionField v : Nat) : ℚ) * 2 ^ biasedExponent v / 2 ^ 1075)

/-- `r` is the finite binary64 value nearest to `exact`; at a tie its fraction is even (R12). -/
def NearestEven (exact : ℚ) (r : F64) : Prop :=
  IsFinite r ∧
    (∀ r' : F64, IsFinite r' → |f64Value r - exact| ≤ |f64Value r' - exact|) ∧
    (∀ r' : F64, IsFinite r' → f64Value r' ≠ f64Value r → |f64Value r' - exact| = |f64Value r - exact| →
      fractionField r % 2 = 0)

/-- The largest finite binary64 value. -/
def largestFinite : ℚ := (2 ^ 53 - 1) * 2 ^ 971

/-- A coordinate pair inside the domain, bounds included, by the ordered comparisons of R93. -/
def InDomain (k : ConstRegs) (lon lat : F64) : Prop :=
  fge lon k.lonMin = true ∧ fle lon k.lonMax = true ∧ fge lat k.latMin = true ∧ fle lat k.latMax = true

end Sys2Proof.Machine
end

