-- ==== Sys2Proof/Certificates/Slice0/Obligations.lean ====
section
/-! DEFINITION. The statements for the provers. In every statement about a command, `AnsweredWith s p rsp t` is its frame:
the constant registers, the requests not yet accepted and the responses already given are unchanged, the request is
consumed, and exactly the response `rsp` is added for its requester. -/

open Sys2Proof Sys2Proof.Machine

/-! ## Encoding -/

/-- The words of R53 and of the table of R61, and the ninth MOVE word of R62, decode to the commands named there; the
pseudo-instructions of R61 expand to the MOVE commands of its table. -/
def Obligations.TableWordsDecode : Prop :=
  Sys2Proof.decode 0x00000001#32 = .ok .range ∧ Sys2Proof.decode 0x00000002#32 = .ok .interleave ∧
  Sys2Proof.decode 0x00000003#32 = .ok .deinterleave ∧ Sys2Proof.decode 0x00000004#32 = .ok .quant ∧
  Sys2Proof.decode 0x00000005#32 = .ok .encode ∧ Sys2Proof.decode 0x00000006#32 = .ok .decode ∧
  Sys2Proof.decode 0x00000007#32 = .ok .decodec ∧ Sys2Proof.decode 0x00000009#32 = .ok .neighbors ∧
  expandPseudo .north = .move 0 1 ∧ Sys2Proof.decode 0x00000408#32 = .ok (expandPseudo .north) ∧
  expandPseudo .south = .move 0 (-1) ∧ Sys2Proof.decode 0x00000C08#32 = .ok (expandPseudo .south) ∧
  expandPseudo .east = .move 1 0 ∧ Sys2Proof.decode 0x00000108#32 = .ok (expandPseudo .east) ∧
  expandPseudo .west = .move (-1) 0 ∧ Sys2Proof.decode 0x00000308#32 = .ok (expandPseudo .west) ∧
  expandPseudo .northeast = .move 1 1 ∧ Sys2Proof.decode 0x00000508#32 = .ok (expandPseudo .northeast) ∧
  expandPseudo .northwest = .move (-1) 1 ∧ Sys2Proof.decode 0x00000708#32 = .ok (expandPseudo .northwest) ∧
  expandPseudo .southeast = .move 1 (-1) ∧ Sys2Proof.decode 0x00000D08#32 = .ok (expandPseudo .southeast) ∧
  expandPseudo .southwest = .move (-1) (-1) ∧ Sys2Proof.decode 0x00000F08#32 = .ok (expandPseudo .southwest) ∧
  Sys2Proof.decode 0x00000008#32 = .ok (.move 0 0)

/-- Decoding the encoding of a well-formed instruction gives the instruction back, with both directions of a MOVE at every
value its field admits. -/
def Obligations.DecodeOfEncodeIsTheInstruction : Prop :=
  ∀ i : Instr, i.wellFormed = true → Sys2Proof.decode (Sys2Proof.encode i) = .ok i

/-- The other direction: a word decodes to an instruction only if the instruction is well formed and the word is its
encoding, so no bit of a word is dropped and no two words share a meaning. -/
def Obligations.DecodedWordIsTheEncoding : Prop :=
  ∀ (w : CommandWord) (i : Instr), Sys2Proof.decode w = .ok i → i.wellFormed = true ∧ Sys2Proof.encode i = w

/-- R57: a word is illegal exactly on the three grounds of the rule, written on the word as a number; an illegal word executes
no operation and is answered with STATUS 5, every other slot zero, whatever the operand slots hold. -/
def Obligations.IllegalWordsAreAnswered : Prop :=
  ∀ (s : State) (p : InService), Serving s p →
    let w := p.req.cmd.toNat
    let opcode := w % 2 ^ 8
    let illegal := (opcode = 0 ∨ 9 < opcode) ∨ (opcode ≠ 8 ∧ w / 2 ^ 8 ≠ 0) ∨ (opcode = 8 ∧ w / 2 ^ 12 ≠ 0) ∨
      (opcode = 8 ∧ (w / 2 ^ 8 % 4 = 2 ∨ w / 2 ^ 10 % 4 = 2))
    (illegal ↔ ∀ i, Sys2Proof.decode p.req.cmd ≠ .ok i) ∧
    (illegal → ∃ t, step s = .next t ∧ AnsweredWith s p (failureResponse 5) t)

/-- The spec's count ("There are 17 legal command words in all", R58, which it marks as derived): a word has a command exactly
if it is one of the seventeen. -/
def Obligations.SeventeenWordsHaveACommand : Prop :=
  ∀ w : CommandWord, (∃ i, Sys2Proof.decode w = .ok i) ↔
    w ∈ [0x001#32, 0x002#32, 0x003#32, 0x004#32, 0x005#32, 0x006#32, 0x007#32, 0x009#32,
      0x008#32, 0x108#32, 0x308#32, 0x408#32, 0x508#32, 0x708#32, 0xC08#32, 0xD08#32, 0xF08#32]

/-! ## The step, reset and runs -/

/-- When a request is in progress, its latency over, and its word decodes to `i`, the step is `exec i` (R4, R5, R58).
That a latency goes by first is the model's reading of the OPEN parameter `LATENCY` (log 2). -/
def Obligations.StepExecutesTheDecodedCommand : Prop :=
  ∀ (s : State) (p : InService) (i : Instr), Serving s p → Sys2Proof.decode p.req.cmd = .ok i → step s = exec i s

/-- Between commands: an idle engine stays as it is, a request is accepted in the order of issue, and a waiting request waits
(R25, R170, R182). The order between requesters and the wait are the model's choices (logs 1 and 2). -/
def Obligations.EngineIdlesAcceptsAndWaits : Prop :=
  (∀ s : State, s.inService = none → s.issued = [] → step s = .next s) ∧
  (∀ (s : State) (w : Issued) (rest : List Issued), s.inService = none → s.issued = w :: rest →
    ∃ wait, step s = .next { s with
      issued := rest, inService := some { requester := w.requester, req := w.req, wait := wait } }) ∧
  (∀ (s : State) (p : InService) (wait : Nat), s.inService = some p → p.wait = wait + 1 →
    step s = .next { s with inService := some { requester := p.requester, req := p.req, wait := wait } })

/-- The engine never stops: every step of every state, and every command, answers a next state (R150). -/
def Obligations.EngineNeverStops : Prop :=
  (∀ s : State, ∃ t, step s = .next t) ∧ ∀ (i : Instr) (s : State), ∃ t, exec i s = .next t

/-- After reset the constants hold the patterns of R21, no request is issued or in progress and no response is pending
(R37, R170). -/
def Obligations.ResetHoldsTheConstantsAndIsIdle : Prop :=
  State.reset.k.latMin = 0xC0554345B1A57F00#64 ∧ State.reset.k.latMax = 0x40554345B1A57F00#64 ∧
  State.reset.k.lonMin = 0xC066800000000000#64 ∧ State.reset.k.lonMax = 0x4066800000000000#64 ∧
  State.reset.k.maxStep = 26#16 ∧
  State.reset.issued = [] ∧ State.reset.inService = none ∧ State.reset.responses = []

/-- The state after reset is safe. -/
def Obligations.ResetIsSafe : Prop := SafeState State.reset

/-- Every step of a safe state gives a safe state: the constant registers keep their values (R21: read-only), every response
has a status of R151 and no result beside a failure (R29), and `InvalidDomain` is never reported (R72). -/
def Obligations.StepKeepsSafety : Prop := ∀ s t : State, SafeState s → step s = .next t → SafeState t

/-- The same for every run in which the engine's steps, requests, collected responses and resets are interleaved in any way. -/
def Obligations.MovesKeepSafety : Prop := ∀ (moves : List Move) (s : State), SafeState s → SafeState (runMoves moves s)

/-- R46 (a) and (c), for every run without reset, from every state and for every requester: the responses it has taken,
followed by those still owed to it, are those owed to it at the start, followed by the response to each request it issued, in
the order of issue. So responses come in the order of the requests, one each, none dropped and none duplicated, and each is a
function of its own request and the constants. -/
def Obligations.ResponsesComeInOrderOnceEach : Prop :=
  ∀ (requester : Nat) (moves : List Move) (s : State), NoReset moves →
    collectedBy requester moves s ++ owed requester (runMoves moves s) =
      owed requester s ++ (issuedBy requester moves).map (respond s.k)

/-- R46 (b): no requester can observe what the others do or in which order requests are served. In two runs without reset, from
any two states with the same constants that owe it the same responses, in which it issues the same requests, whatever else
happens in them, what it takes in one is the beginning of what it takes in the other; and it is the same once nothing is owed to
it. That all requesters are served from one queue in the order of issue is the model's choice (log 1). -/
def Obligations.RequestersCannotObserveOneAnother : Prop :=
  ∀ (requester : Nat) (moves moves' : List Move) (s s' : State), NoReset moves → NoReset moves' →
    s.k = s'.k → owed requester s = owed requester s' → issuedBy requester moves = issuedBy requester moves' →
    (collectedBy requester moves s <+: collectedBy requester moves' s' ∨
      collectedBy requester moves' s' <+: collectedBy requester moves s) ∧
    (owed requester (runMoves moves s) = [] → owed requester (runMoves moves' s') = [] →
      collectedBy requester moves s = collectedBy requester moves' s')

/-- R182: every request is answered after finitely many steps while reset is not asserted. From any state, after `workLeft`
steps nothing is issued or in progress, and what is owed to each requester is what was owed before. The count of steps rests
on the model's reading of `LATENCY` (log 2). -/
def Obligations.EveryRequestIsAnswered : Prop :=
  ∀ s : State, ∃ t, Host.Core.run Sys2Proof.core (workLeft s) s = .next t ∧
    t.issued = [] ∧ t.inService = none ∧ t.k = s.k ∧ ∀ requester, owed requester t = owed requester s

/-- R170 and R171: reset discards every request not answered, and nothing of it survives; a request issued after reset is owed
the one response that a machine with the hardwired constants owed it before. R171 speaks of accepted requests; that reset also
discards requests not yet accepted and responses not yet taken is the model's reading (log 10, DEDUCED). -/
def Obligations.ResetDiscardsRequests : Prop :=
  (∀ (s : State) (requester : Nat), owed requester (s.afterMove .assertReset) = []) ∧
  (∀ s : State, s.afterMove .assertReset = State.reset) ∧
  (∀ (s : State) (requester : Nat) (q : Request),
    owed requester ((s.afterMove .assertReset).issue requester q) = [respond hardwiredK q] ∧
    (s.k = hardwiredK → owed requester (s.issue requester q) = owed requester s ++ [respond hardwiredK q]))

/-- R173: when every request issued has received its response, the engine is in the same state as after reset. -/
def Obligations.DrainedEngineIsAsAfterReset : Prop :=
  ∀ s : State, SafeState s → (∀ requester, owed requester s = []) → s = State.reset

/-! ## Frames and independence -/

/-- Every command answers the request in progress once, with the response of R4's function, and leaves the rest of the state as
it was (R20, R36, R43). -/
def Obligations.CommandsAnswerOnceAndKeepTheRest : Prop :=
  ∀ (i : Instr) (s : State) (p : InService), s.inService = some p →
    ∃ t, exec i s = .next t ∧ AnsweredWith s p (commandResponse i s.k p.req) t

/-- R43 and R46 (a): two engines with the same constants answer the same request alike, whatever else their states hold. -/
def Obligations.ResponseDependsOnTheRequestOnly : Prop :=
  ∀ (s s' : State) (p p' : InService), Serving s p → Serving s' p' → s.k = s'.k → p.req = p'.req →
    ∃ rsp t t', step s = .next t ∧ step s' = .next t' ∧ AnsweredWith s p rsp t ∧ AnsweredWith s' p' rsp t'

/-- R30: operand bits a command does not read (R31) do not affect the response. -/
def Obligations.UnusedOperandBitsAreIgnored : Prop :=
  ∀ (i : Instr) (k : ConstRegs) (q q' : Request), SameOperands i q q' → commandResponse i k q = commandResponse i k q'

/-- R71: INTERLEAVE, DEINTERLEAVE, MOVE and NEIGHBORS do not consume the domain: their responses are the same for any
constants. -/
def Obligations.DomainFreeCommandsIgnoreTheConstants : Prop :=
  ∀ (k k' : ConstRegs) (q : Request) (dirx diry : Int),
    commandResponse .interleave k q = commandResponse .interleave k' q ∧
    commandResponse .deinterleave k q = commandResponse .deinterleave k' q ∧
    commandResponse (.move dirx diry) k q = commandResponse (.move dirx diry) k' q ∧
    commandResponse .neighbors k q = commandResponse .neighbors k' q

/-- R73: no command compares a step with `MAX_RECOMMENDED_STEP`; only RANGE, which returns it, depends on it, and ENCODE accepts
the steps above it up to 32. -/
def Obligations.AdvisoryStepIsNeverCompared : Prop :=
  hardwiredK.maxStep = 26#16 ∧
  (∀ (i : Instr) (k : ConstRegs) (q : Request) (m : Step), i ≠ .range →
    commandResponse i { k with maxStep := m } q = commandResponse i k q) ∧
  (∀ q : Request, 26 < q.s.toNat → q.s.toNat ≤ 32 → InDomain hardwiredK q.a q.b →
    (commandResponse .encode hardwiredK q).status = 0 ∧ (commandResponse .encode hardwiredK q).rs = q.s)

/-! ## Failures -/

/-- R154: for QUANT and ENCODE every step outside 1 to 32 is `InvalidStep`; for DECODE, DECODEC, MOVE and NEIGHBORS a step of 0
is `EmptyCode` and a step above 32 is `InvalidStep`. The other slots are zero. -/
def Obligations.StepFailuresByCommand : Prop :=
  ∀ (i : Instr) (s : State) (p : InService), s.inService = some p →
    (i = .quant ∨ i = .encode → ¬ LegalStep p.req.s →
      ∃ t, exec i s = .next t ∧ AnsweredWith s p (failureResponse 1) t) ∧
    (i = .decode ∨ i = .decodec ∨ i = .neighbors ∨ (∃ dirx diry, i = .move dirx diry) →
      (p.req.s.toNat = 0 → ∃ t, exec i s = .next t ∧ AnsweredWith s p (failureResponse 4) t) ∧
      (32 < p.req.s.toNat → ∃ t, exec i s = .next t ∧ AnsweredWith s p (failureResponse 1) t))

/-- R156: `InvalidDomain` is reported by QUANT, ENCODE, DECODE and DECODEC exactly when the step passes its test and a domain
Range lacks `max > min`, and by no other command; with the hardwired domain it is never reported. -/
def Obligations.DegenerateDomainIsReported : Prop :=
  (∀ (i : Instr) (k : ConstRegs) (q : Request),
    (commandResponse i k q).status = 2 ↔
      (i = .quant ∨ i = .encode ∨ i = .decode ∨ i = .decodec) ∧ LegalStep q.s ∧
        ¬ (fgt k.latMax k.latMin = true ∧ fgt k.lonMax k.lonMin = true)) ∧
  (∀ q : Request, (respond hardwiredK q).status ≠ 2)

/-- R93: with a legal step, QUANT and ENCODE fail with `CoordinateOutOfDomain` exactly when a coordinate is outside its bounds,
both included; a NaN or an infinity in either fails; `-0.0` is treated as `0.0`. -/
def Obligations.CoordinatesAreTested : Prop :=
  ∀ (i : Instr) (q : Request), i = .quant ∨ i = .encode → LegalStep q.s →
    (¬ InDomain hardwiredK q.a q.b → commandResponse i hardwiredK q = failureResponse 3) ∧
    (InDomain hardwiredK q.a q.b → (commandResponse i hardwiredK q).status = 0) ∧
    (¬ IsFinite q.a ∨ ¬ IsFinite q.b → commandResponse i hardwiredK q = failureResponse 3) ∧
    commandResponse i hardwiredK { q with a := 0x8000000000000000#64 } =
      commandResponse i hardwiredK { q with a := 0#64 } ∧
    commandResponse i hardwiredK { q with b := 0x8000000000000000#64 } =
      commandResponse i hardwiredK { q with b := 0#64 }

/-- R152: RANGE, INTERLEAVE and DEINTERLEAVE cannot fail. -/
def Obligations.CommandsThatCannotFail : Prop :=
  ∀ (i : Instr) (s : State) (p : InService), i = .range ∨ i = .interleave ∨ i = .deinterleave → s.inService = some p →
    ∃ rsp t, exec i s = .next t ∧ AnsweredWith s p rsp t ∧ rsp.status = 0

/-! ## Arithmetic -/

/-- The ordered comparisons of R12: false with a NaN, and on finite patterns the order of the exact values, so that `-0.0`
equals `+0.0`. The infinities lie beyond every finite value (PRESUMED, log 7). -/
def Obligations.ComparisonsFollowTheValues : Prop :=
  ∀ a b : F64,
    (IsNaN a ∨ IsNaN b → flt a b = false ∧ fle a b = false ∧ fgt a b = false ∧ fge a b = false) ∧
    (IsFinite a → IsFinite b →
      (flt a b = true ↔ f64Value a < f64Value b) ∧ (fle a b = true ↔ f64Value a ≤ f64Value b) ∧
      (fgt a b = true ↔ f64Value b < f64Value a) ∧ (fge a b = true ↔ f64Value b ≤ f64Value a)) ∧
    (IsFinite a → flt a 0x7FF0000000000000#64 = true ∧ flt 0xFFF0000000000000#64 a = true)

/-- R12: `fadd`, `fsub`, `fmul` and `fdiv` give the binary64 value nearest to the exact result, ties to even, on all finite
operands whose exact result is within the finite range. What value the fields of a pattern stand for is IEEE 754's (PRESUMED,
log 7). -/
def Obligations.ArithmeticRoundsToNearestEven : Prop :=
  ∀ a b : F64, IsFinite a → IsFinite b →
    (|f64Value a + f64Value b| ≤ largestFinite → NearestEven (f64Value a + f64Value b) (fadd a b)) ∧
    (|f64Value a - f64Value b| ≤ largestFinite → NearestEven (f64Value a - f64Value b) (fsub a b)) ∧
    (|f64Value a * f64Value b| ≤ largestFinite → NearestEven (f64Value a * f64Value b) (fmul a b)) ∧
    (f64Value b ≠ 0 → |f64Value a / f64Value b| ≤ largestFinite → NearestEven (f64Value a / f64Value b) (fdiv a b))

/-- The conversions of R12 and the ratio of R115 are exact: every integer below `2^53`, every `2^k` with `k` up to 32, and
`n / 2^k` for every `n` up to `2^32`. The last is the spec's own inference. -/
def Obligations.ConversionsAreExact : Prop :=
  (∀ n : Nat, n < 2 ^ 53 → IsFinite (natToF64 n) ∧ f64Value (natToF64 n) = n) ∧
  (∀ k : Nat, k ≤ 32 → IsFinite (pow2 k) ∧ f64Value (pow2 k) = 2 ^ k) ∧
  (∀ n k : Nat, n ≤ 2 ^ 32 → k ≤ 32 →
    IsFinite (fdiv (natToF64 n) (pow2 k)) ∧ f64Value (fdiv (natToF64 n) (pow2 k)) = (n : ℚ) / 2 ^ k)

/-! ## Range Provider and Bit Interleaver -/

/-- R70: RANGE returns the two domain Ranges and the advisory step ceiling, whatever the operand slots hold. -/
def Obligations.RangeReturnsTheDomain : Prop :=
  Sys2Proof.decode 0x00000001#32 = .ok .range ∧
  ∀ (s : State) (p : InService), s.k = hardwiredK → s.inService = some p →
    ∃ t, exec .range s = .next t ∧
      AnsweredWith s p
        { status := 0, rs := 26, r0 := 0xC0554345B1A57F00#64, r1 := 0x40554345B1A57F00#64,
          r2 := 0xC066800000000000#64, r3 := 0x4066800000000000#64, r4 := 0, r5 := 0, r6 := 0, r7 := 0 } t

/-- R79: INTERLEAVE puts bit `i` of `A[31:0]` at bit `2i` of `R0` and bit `i` of `B[31:0]` at bit `2i+1`; every other slot is
zero. -/
def Obligations.InterleavePlacesTheBits : Prop :=
  Sys2Proof.decode 0x00000002#32 = .ok .interleave ∧
  ∀ (s : State) (p : InService), s.inService = some p →
    ∃ code t, exec .interleave s = .next t ∧
      AnsweredWith s p { failureResponse 0 with r0 := code } t ∧
      ∀ i, i < 32 → code.getLsbD (2 * i) = p.req.a.getLsbD i ∧ code.getLsbD (2 * i + 1) = p.req.b.getLsbD i

/-- R80: DEINTERLEAVE puts the even positions of `A` in `R0` and the odd ones in `R1`, zero-extended; every other slot is
zero. -/
def Obligations.DeinterleaveSplitsTheBits : Prop :=
  Sys2Proof.decode 0x00000003#32 = .ok .deinterleave ∧
  ∀ (s : State) (p : InService), s.inService = some p →
    ∃ even odd t, exec .deinterleave s = .next t ∧
      AnsweredWith s p { failureResponse 0 with r0 := even, r1 := odd } t ∧
      (∀ i, i < 32 → even.getLsbD i = p.req.a.getLsbD (2 * i) ∧ odd.getLsbD i = p.req.a.getLsbD (2 * i + 1)) ∧
      (∀ i, 32 ≤ i → even.getLsbD i = false ∧ odd.getLsbD i = false)

/-- R76 and R77: the two functions are inverses, in both directions (the second is the spec's own inference). -/
def Obligations.LanesRoundTrip : Prop :=
  (∀ x y : Lane, deinterleave (interleave x y) = { even := x, odd := y }) ∧
  (∀ v : Slot, interleave (deinterleave v).even (deinterleave v).odd = v)

/-- The spec's own inference in R81: a code has no bit above its window exactly when both of its lanes are below `2^step`. -/
def Obligations.CanonicalCodeHasBoundedLanes : Prop :=
  ∀ (bits : Slot) (s : Nat), s ≤ 32 →
    (bits.toNat < 4 ^ s ↔ (deinterleave bits).even.toNat < 2 ^ s ∧ (deinterleave bits).odd.toNat < 2 ^ s)

/-- R78: the software form with the magic masks (general knowledge in the spec, G2) computes the same functions. -/
def Obligations.MagicFormsAgree : Prop :=
  (∀ x y : Lane, interleaveMagic x y = interleave x y) ∧ (∀ v : Slot, deinterleaveMagic v = deinterleave v)

/-! ## Quantizer and Encoder -/

/-- R100: QUANT succeeds on every legal step and every coordinate pair in the domain: each lane is the low 32 bits of the floor
of the exact value of the scaled offset, computed by subtraction, division and multiplication in that order. Otherwise it fails
with `InvalidStep`, or with `CoordinateOutOfDomain` when the step is legal. -/
def Obligations.QuantComputesTheLanes : Prop :=
  Sys2Proof.decode 0x00000004#32 = .ok .quant ∧
  ∀ (s : State) (p : InService), s.k = hardwiredK → s.inService = some p →
    (LegalStep p.req.s → InDomain hardwiredK p.req.a p.req.b →
      ∃ lat lon t, exec .quant s = .next t ∧
        AnsweredWith s p { failureResponse 0 with r0 := lat, r1 := lon, rs := p.req.s } t ∧
        (lat.toNat : Int) = ⌊f64Value (fmul (fdiv (fsub p.req.b s.k.latMin) (fsub s.k.latMax s.k.latMin))
          (pow2 p.req.s.toNat))⌋ % 2 ^ 32 ∧
        (lon.toNat : Int) = ⌊f64Value (fmul (fdiv (fsub p.req.a s.k.lonMin) (fsub s.k.lonMax s.k.lonMin))
          (pow2 p.req.s.toNat))⌋ % 2 ^ 32) ∧
    (¬ LegalStep p.req.s → ∃ t, exec .quant s = .next t ∧ AnsweredWith s p (failureResponse 1) t) ∧
    (LegalStep p.req.s → ¬ InDomain hardwiredK p.req.a p.req.b →
      ∃ t, exec .quant s = .next t ∧ AnsweredWith s p (failureResponse 3) t)

/-- R97 and R101: ENCODE succeeds where QUANT does, and its code is QUANT's two lanes interleaved, latitude in the even positions
and longitude in the odd ones, with the request's step; it fails where QUANT does, with the same status. -/
def Obligations.EncodeInterleavesTheLanes : Prop :=
  Sys2Proof.decode 0x00000005#32 = .ok .encode ∧
  ∀ (s : State) (p : InService), s.k = hardwiredK → s.inService = some p →
    (LegalStep p.req.s → InDomain hardwiredK p.req.a p.req.b →
      ∃ code t, exec .encode s = .next t ∧
        AnsweredWith s p { failureResponse 0 with r0 := code, rs := p.req.s } t ∧
        ∀ i, i < 32 →
          code.getLsbD (2 * i) = (commandResponse .quant s.k p.req).r0.getLsbD i ∧
          code.getLsbD (2 * i + 1) = (commandResponse .quant s.k p.req).r1.getLsbD i) ∧
    (¬ LegalStep p.req.s → ∃ t, exec .encode s = .next t ∧ AnsweredWith s p (failureResponse 1) t) ∧
    (LegalStep p.req.s → ¬ InDomain hardwiredK p.req.a p.req.b →
      ∃ t, exec .encode s = .next t ∧ AnsweredWith s p (failureResponse 3) t)

/-- The spec's own inference in R98: for a pair in the domain each offset is between 0 and 1; the lane before truncation is at
most `2^step`, and `2^step` exactly when the offset is 1.0; and when both offsets are below 1.0 the code is canonical. -/
def Obligations.OffsetsStayInTheUnitInterval : Prop :=
  ∀ (lon lat : F64) (step : Step), LegalStep step → InDomain hardwiredK lon lat →
    let latOffset := fdiv (fsub lat Config.latMin) (fsub Config.latMax Config.latMin)
    let lonOffset := fdiv (fsub lon Config.lonMin) (fsub Config.lonMax Config.lonMin)
    (IsFinite latOffset ∧ 0 ≤ f64Value latOffset ∧ f64Value latOffset ≤ 1) ∧
    (IsFinite lonOffset ∧ 0 ≤ f64Value lonOffset ∧ f64Value lonOffset ≤ 1) ∧
    (⌊f64Value (fmul latOffset (pow2 step.toNat))⌋ ≤ 2 ^ step.toNat ∧
      (⌊f64Value (fmul latOffset (pow2 step.toNat))⌋ = 2 ^ step.toNat ↔ f64Value latOffset = 1)) ∧
    (⌊f64Value (fmul lonOffset (pow2 step.toNat))⌋ ≤ 2 ^ step.toNat ∧
      (⌊f64Value (fmul lonOffset (pow2 step.toNat))⌋ = 2 ^ step.toNat ↔ f64Value lonOffset = 1)) ∧
    (f64Value latOffset < 1 → f64Value lonOffset < 1 → ∀ cmd,
      CanonicalCode (commandResponse .encode hardwiredK { cmd := cmd, a := lon, b := lat, s := step }).r0 step)

/-- The spec's own inference in R99: on each axis exactly the maximum and the pattern just below it reach lane `2^step`, or
lane 0 at step 32; every other coordinate in the domain gives a lane below `2^step`. -/
def Obligations.TopOfTheDomain : Prop :=
  ∀ (lon lat : F64) (step : Step) (cmd : CommandWord), LegalStep step → InDomain hardwiredK lon lat →
    let lanes := commandResponse .quant hardwiredK { cmd := cmd, a := lon, b := lat, s := step }
    let top := if step.toNat < 32 then 2 ^ step.toNat else 0
    (if lat = 0x40554345B1A57F00#64 ∨ lat = 0x40554345B1A57EFF#64 then lanes.r0.toNat = top
      else lanes.r0.toNat < 2 ^ step.toNat ∧
        f64Value (fdiv (fsub lat Config.latMin) (fsub Config.latMax Config.latMin)) < 1) ∧
    (if lon = 0x4066800000000000#64 ∨ lon = 0x40667FFFFFFFFFFF#64 then lanes.r1.toNat = top
      else lanes.r1.toNat < 2 ^ step.toNat ∧
        f64Value (fdiv (fsub lon Config.lonMin) (fsub Config.lonMax Config.lonMin)) < 1)

/-- D00's known vector, with the intermediate values the spec's walk through gives (R102). -/
def Obligations.KnownVectorEncodes : Prop :=
  let lon := 0xC05586E7D4900FAD#64
  let lat := 0x4043F632B12D3416#64
  fsub lat Config.latMin = 0x405F3E5F0A3C190B#64 ∧
  fdiv 0x405F3E5F0A3C190B#64 (fsub Config.latMax Config.latMin) = 0x3FE782AEC76C8231#64 ∧
  fmul 0x3FE782AEC76C8231#64 (pow2 26) = 0x418782AEC76C8231#64 ∧
  fsub lon Config.lonMin = 0x405779182B6FF053#64 ∧
  fdiv 0x405779182B6FF053#64 (fsub Config.lonMax Config.lonMin) = 0x3FD0B1224105A535#64 ∧
  fmul 0x3FD0B1224105A535#64 (pow2 26) = 0x4170B1224105A535#64 ∧
  respond hardwiredK { cmd := 4, a := lon, b := lat, s := 26 } =
    { failureResponse 0 with r0 := 0x02F055D8#64, r1 := 0x010B1224#64, rs := 26 } ∧
  respond hardwiredK { cmd := 5, a := lon, b := lat, s := 26 } =
    { failureResponse 0 with r0 := 1782901374540128#64, rs := 26 }

/-- R104: the swapped call of D00 fails with `CoordinateOutOfDomain`, code and step zero. -/
def Obligations.SwappedCallIsRejected : Prop :=
  ∀ (s : State) (p : InService), s.k = hardwiredK → s.inService = some p →
    p.req.a = 0x4043F632B12D3416#64 → p.req.b = 0xC05586E7D4900FAD#64 → p.req.s = 26#16 →
    ∃ t, exec .encode s = .next t ∧ AnsweredWith s p (failureResponse 3) t

/-- R179: the response of a failed ENCODE reads as the empty code, and feeding it into DECODE yields `EmptyCode`; the bottom
corner of the domain encodes to `bits = 0` too, with STATUS 0 and the requested step in RS. -/
def Obligations.FailedEncodeReadsAsTheEmptyCode : Prop :=
  (∀ (k : ConstRegs) (q : Request) (b : Slot),
    (commandResponse .encode k q).status ≠ 0 →
      (commandResponse .encode k q).r0 = 0 ∧ (commandResponse .encode k q).rs = 0 ∧
      respond k { cmd := 6, a := (commandResponse .encode k q).r0, b := b, s := (commandResponse .encode k q).rs } =
        failureResponse 4) ∧
  (∀ (step : Step) (cmd : CommandWord), LegalStep step →
    commandResponse .encode hardwiredK { cmd := cmd, a := Config.lonMin, b := Config.latMin, s := step } =
      { failureResponse 0 with rs := step })

/-! ## Decoder -/

/-- R111, R113 and R114: DECODE succeeds on every code with a legal step, canonical or not, and returns the four bounds computed
from the two whole lanes by division, multiplication and addition in that order, with `fp + 1` not wrapping, and the originating
code. It fails with `EmptyCode` at step 0 and with `InvalidStep` above 32. -/
def Obligations.DecodeReturnsTheCell : Prop :=
  Sys2Proof.decode 0x00000006#32 = .ok .decode ∧
  ∀ (s : State) (p : InService), s.k = hardwiredK → s.inService = some p →
    let lat := (deinterleave p.req.a).even.toNat
    let lon := (deinterleave p.req.a).odd.toNat
    let scale := pow2 p.req.s.toNat
    let latSpan := fsub s.k.latMax s.k.latMin
    let lonSpan := fsub s.k.lonMax s.k.lonMin
    (LegalStep p.req.s → ∃ t, exec .decode s = .next t ∧
      AnsweredWith s p
        { failureResponse 0 with
          r0 := fadd s.k.latMin (fmul (fdiv (natToF64 lat) scale) latSpan)
          r1 := fadd s.k.latMin (fmul (fdiv (natToF64 (lat + 1)) scale) latSpan)
          r2 := fadd s.k.lonMin (fmul (fdiv (natToF64 lon) scale) lonSpan)
          r3 := fadd s.k.lonMin (fmul (fdiv (natToF64 (lon + 1)) scale) lonSpan)
          r4 := p.req.a
          rs := p.req.s } t) ∧
    (p.req.s.toNat = 0 → ∃ t, exec .decode s = .next t ∧ AnsweredWith s p (failureResponse 4) t) ∧
    (32 < p.req.s.toNat → ∃ t, exec .decode s = .next t ∧ AnsweredWith s p (failureResponse 1) t)

/-- The spec's own inference in R120: DECODE's bounds and DECODEC's centroid are never a NaN or an infinity, and are below
`10^12` in magnitude, for every 64-bit code at every legal step. -/
def Obligations.DecodedValuesAreFinite : Prop :=
  ∀ (q : Request) (v : F64), LegalStep q.s →
    let cell := commandResponse .decode hardwiredK q
    let centre := commandResponse .decodec hardwiredK q
    v ∈ [cell.r0, cell.r1, cell.r2, cell.r3, centre.r0, centre.r1] → IsFinite v ∧ |f64Value v| < 10 ^ 12

/-- The spec's own inference in R118 and R119: the longitude bounds, the width of the cell and the centroid longitude are
exact, for every 64-bit code at every legal step. -/
def Obligations.LongitudeIsExact : Prop :=
  ∀ q : Request, LegalStep q.s →
    let cell := commandResponse .decode hardwiredK q
    let lon := ((deinterleave q.a).odd.toNat : ℚ)
    f64Value cell.r2 = 45 * (lon - 2 ^ q.s.toNat / 2) * 8 / 2 ^ q.s.toNat ∧
    f64Value cell.r3 = 45 * (lon + 1 - 2 ^ q.s.toNat / 2) * 8 / 2 ^ q.s.toNat ∧
    f64Value cell.r3 - f64Value cell.r2 = 360 / 2 ^ q.s.toNat ∧
    f64Value (commandResponse .decodec hardwiredK q).r1 = (f64Value cell.r2 + f64Value cell.r3) / 2

/-- The corner cases of R120: code 0 at every legal step starts exactly at the domain minima, and the all-ones code at step 32
ends exactly at the domain maxima. -/
def Obligations.CornerCellsMeetTheDomain : Prop :=
  (∀ q : Request, LegalStep q.s → q.a = 0 →
    (commandResponse .decode hardwiredK q).status = 0 ∧
    (commandResponse .decode hardwiredK q).r0 = Config.latMin ∧
    (commandResponse .decode hardwiredK q).r2 = Config.lonMin) ∧
  (∀ q : Request, q.a = 0xFFFFFFFFFFFFFFFF#64 → q.s = 32#16 →
    (commandResponse .decode hardwiredK q).r1 = Config.latMax ∧
    (commandResponse .decode hardwiredK q).r3 = Config.lonMax)

/-- R116: DECODEC succeeds on every code with a legal step and returns the midpoint of each of DECODE's Ranges, one addition and
then a division by 2.0, latitude first, and no code; where DECODE fails it fails with the same status (R121). -/
def Obligations.DecodecReturnsTheMidpoint : Prop :=
  Sys2Proof.decode 0x00000007#32 = .ok .decodec ∧
  ∀ (s : State) (p : InService), s.k = hardwiredK → s.inService = some p →
    let cell := commandResponse .decode s.k p.req
    (LegalStep p.req.s → cell.status = 0 ∧ ∃ t, exec .decodec s = .next t ∧
      AnsweredWith s p
        { failureResponse 0 with
          r0 := fdiv (fadd cell.r0 cell.r1) 0x4000000000000000#64
          r1 := fdiv (fadd cell.r2 cell.r3) 0x4000000000000000#64 } t) ∧
    (¬ LegalStep p.req.s → cell.status ≠ 0 ∧
      ∃ t, exec .decodec s = .next t ∧ AnsweredWith s p (failureResponse cell.status) t)

/-- R103 with a bound on the rounding, which the spec leaves open: for a pair in the domain whose offsets are below 1.0,
decoding the code of the pair gives a cell that contains it to within `2^-44`. -/
def Obligations.DecodeContainsTheEncodedPoint : Prop :=
  ∀ (lon lat : F64) (step : Step), LegalStep step → InDomain hardwiredK lon lat →
    f64Value (fdiv (fsub lat Config.latMin) (fsub Config.latMax Config.latMin)) < 1 →
    f64Value (fdiv (fsub lon Config.lonMin) (fsub Config.lonMax Config.lonMin)) < 1 →
    let code := respond hardwiredK { cmd := 5, a := lon, b := lat, s := step }
    let cell := respond hardwiredK { cmd := 6, a := code.r0, b := 0, s := code.rs }
    cell.status = 0 ∧
    f64Value cell.r0 - 1 / 2 ^ 44 ≤ f64Value lat ∧ f64Value lat < f64Value cell.r1 + 1 / 2 ^ 44 ∧
    f64Value cell.r2 - 1 / 2 ^ 44 ≤ f64Value lon ∧ f64Value lon < f64Value cell.r3 + 1 / 2 ^ 44

/-! ## Neighbor Calculator -/

/-- The spec's own inference in R129, of D00's "arithmetic is modulo `2^step` per lane": on any 64-bit code a lane moves by one
modulo `2^s`, the other lane keeps its low `s` bits, and everything above the window is dropped; with a direction of 0 all 64
bits stay (R131). -/
def Obligations.LaneMovesAreModular : Prop :=
  (∀ (bits : Slot) (s : Nat), moveX bits s 0 = bits ∧ moveY bits s 0 = bits) ∧
  ∀ (bits : Slot) (s : Nat) (d : Int), 1 ≤ s → s ≤ 32 → d ≠ 0 →
    let even := (deinterleave bits).even.toNat % 2 ^ s
    let odd := (deinterleave bits).odd.toNat % 2 ^ s
    let moved (lane : Nat) : Nat := if 0 < d then (lane + 1) % 2 ^ s else (lane + (2 ^ s - 1)) % 2 ^ s
    moveX bits s d = interleave (BitVec.ofNat 32 even) (BitVec.ofNat 32 (moved odd)) ∧
    moveY bits s d = interleave (BitVec.ofNat 32 (moved even)) (BitVec.ofNat 32 odd)

/-- R135: MOVE moves the odd lane by `dirx`, then the even lane by `diry`, and keeps the step; its words are
`0x00000008 | (dx << 8) | (dy << 10)` with the fields of R54; on the word of each pair of directions it succeeds at every legal
step, and it fails with `EmptyCode` or `InvalidStep` otherwise. -/
def Obligations.MoveMovesTheLanes : Prop :=
  ∀ (dx dy : BitVec 2), dx ≠ 2#2 → dy ≠ 2#2 →
    Sys2Proof.decode (8#32 ||| (dx.setWidth 32 <<< 8) ||| (dy.setWidth 32 <<< 10)) = .ok (.move dx.toInt dy.toInt) ∧
    ∀ (s : State) (p : InService), s.inService = some p →
      (LegalStep p.req.s → ∃ t, exec (.move dx.toInt dy.toInt) s = .next t ∧
        AnsweredWith s p
          { failureResponse 0 with
            r0 := moveY (moveX p.req.a p.req.s.toNat dx.toInt) p.req.s.toNat dy.toInt
            rs := p.req.s } t) ∧
      (p.req.s.toNat = 0 → ∃ t, exec (.move dx.toInt dy.toInt) s = .next t ∧ AnsweredWith s p (failureResponse 4) t) ∧
      (32 < p.req.s.toNat → ∃ t, exec (.move dx.toInt dy.toInt) s = .next t ∧ AnsweredWith s p (failureResponse 1) t)

/-- The spec's own inference in R135 and R139: the two lane moves commute, on any 64-bit code. -/
def Obligations.LaneMovesCommute : Prop :=
  ∀ (bits : Slot) (s : Nat) (dirx diry : Int), 1 ≤ s → s ≤ 32 →
    moveY (moveX bits s dirx) s diry = moveX (moveY bits s diry) s dirx

/-- The spec's own inference in R139: a diagonal MOVE is the composition of the two axis MOVEs in either order, on any 64-bit
code. -/
def Obligations.DiagonalsComposeAxisMoves : Prop :=
  ∀ (k : ConstRegs) (bits b : Slot) (step : Step), LegalStep step →
    let move (p : Pseudo) (v : Slot) : Slot :=
      (respond k { cmd := Sys2Proof.encode (expandPseudo p), a := v, b := b, s := step }).r0
    (move .northeast bits = move .north (move .east bits) ∧ move .northeast bits = move .east (move .north bits)) ∧
    (move .northwest bits = move .north (move .west bits) ∧ move .northwest bits = move .west (move .north bits)) ∧
    (move .southeast bits = move .south (move .east bits) ∧ move .southeast bits = move .east (move .south bits)) ∧
    (move .southwest bits = move .south (move .west bits) ∧ move .southwest bits = move .west (move .south bits))

/-- R136: NEIGHBORS gives, in the order N, S, E, W, NE, NW, SE, SW, what the eight MOVE commands of R61 give for the same code,
and the shared step (R138); it succeeds at every legal step and fails as MOVE does. -/
def Obligations.NeighborsAreEightMoves : Prop :=
  Sys2Proof.decode 0x00000009#32 = .ok .neighbors ∧
  ∀ (s : State) (p : InService), s.inService = some p →
    let move (word : CommandWord) : Slot := (respond s.k { p.req with cmd := word }).r0
    (LegalStep p.req.s → ∃ t, exec .neighbors s = .next t ∧
      AnsweredWith s p
        { status := 0, rs := p.req.s, r0 := move 0x408, r1 := move 0xC08, r2 := move 0x108, r3 := move 0x308,
          r4 := move 0x508, r5 := move 0x708, r6 := move 0xD08, r7 := move 0xF08 } t) ∧
    (p.req.s.toNat = 0 → ∃ t, exec .neighbors s = .next t ∧ AnsweredWith s p (failureResponse 4) t) ∧
    (32 < p.req.s.toNat → ∃ t, exec .neighbors s = .next t ∧ AnsweredWith s p (failureResponse 1) t)

/-- R137, in the spec's stronger form, its own inference: for every canonical code of every step, wrap boundaries included,
West of East, East of West, South of North and North of South are the code itself. -/
def Obligations.NeighborsAreSymmetric : Prop :=
  ∀ (k : ConstRegs) (bits b : Slot) (step : Step), CanonicalCode bits step →
    let of (v : Slot) : Response := respond k { cmd := 9, a := v, b := b, s := step }
    (of (of bits).r2).r3 = bits ∧ (of (of bits).r3).r2 = bits ∧
    (of (of bits).r0).r1 = bits ∧ (of (of bits).r1).r0 = bits

/-- R132 and the corner cases of R136 (the last is the spec's own inference): whatever the 64 bits, all eight neighbours are
canonical, they are those of the code cut to its window, and none of them is that code; MOVE 0, 0 returns all 64 bits. -/
def Obligations.NeighborsAreCanonicalAndOther : Prop :=
  ∀ (k : ConstRegs) (q : Request) (v : Slot), LegalStep q.s →
    let set := commandResponse .neighbors k q
    (v ∈ [set.r0, set.r1, set.r2, set.r3, set.r4, set.r5, set.r6, set.r7] →
      CanonicalCode v q.s ∧ v.toNat ≠ q.a.toNat % 4 ^ q.s.toNat) ∧
    set = commandResponse .neighbors k { q with a := BitVec.ofNat 64 (q.a.toNat % 4 ^ q.s.toNat) } ∧
    (commandResponse (.move 0 0) k q).r0 = q.a

/-! ## The packets as bytes -/

/-- The byte layout the spec suggests for the OPEN parameter `PORT_SERIALISATION` (D27) delivers the same slot values at both
ends (R41), so it is injective. That layout is the model's choice (log 12). -/
def Obligations.PacketBytesRoundTrip : Prop :=
  (∀ q : Request, (requestBytes q).length = 22 ∧ requestOfBytes (requestBytes q) = some q) ∧
  (∀ r : Response, (responseBytes r).length = 67 ∧ responseOfBytes (responseBytes r) = some r)
end

