-- ==== Sys2Proof/Laws/Float.lean ====
section
/-! SUPPORT. The parts of the binary64 arithmetic: rounding, the fields of a pattern, and the exact value it stands for. -/

namespace Sys2Proof.Machine

/-! ## Rounding to an integer -/

/-- Nothing is rounded where the division is exact. -/
theorem roundHalfEven_exact (m d : Nat) (hd : 0 < d) : roundHalfEven (m * d) d = m := by
  simp [roundHalfEven, hd]

/-- The rounded quotient is the floor or one more. -/
theorem roundHalfEven_cases (n d : Nat) : roundHalfEven n d = n / d ∨ roundHalfEven n d = n / d + 1 := by
  unfold roundHalfEven
  split
  · exact .inl rfl
  · split
    · exact .inr rfl
    · split
      · exact .inl rfl
      · exact .inr rfl

/-- The rounded quotient is at most half a unit away, from above and from below. -/
theorem roundHalfEven_near (n d : Nat) (hd : 0 < d) :
    2 * (roundHalfEven n d * d) ≤ 2 * n + d ∧ 2 * n ≤ 2 * (roundHalfEven n d * d) + d := by
  have hn := Nat.div_add_mod n d
  have hm := Nat.mod_lt n hd
  have hq : n / d * d = d * (n / d) := Nat.mul_comm _ _
  unfold roundHalfEven
  split
  · constructor <;> omega
  · split
    · rw [Nat.add_mul]; constructor <;> omega
    · split
      · constructor <;> omega
      · rw [Nat.add_mul]; constructor <;> omega

/-- At a tie the rounded quotient is even. -/
theorem roundHalfEven_tie (n d : Nat) (h : 2 * (n % d) = d) : roundHalfEven n d % 2 = 0 := by
  unfold roundHalfEven
  rw [if_neg (by omega), if_neg (by omega)]
  split <;> omega

/-- Rounding to an integer keeps the order of quotients. -/
theorem roundHalfEven_mono {n d n' d' : Nat} (hd : 0 < d) (hd' : 0 < d') (h : n * d' ≤ n' * d) :
    roundHalfEven n d ≤ roundHalfEven n' d' := by
  have hq : n / d ≤ n' / d' := by
    rw [Nat.le_div_iff_mul_le hd']
    have h1 : n / d * d' * d ≤ n' * d := by
      calc n / d * d' * d = n / d * d * d' := by ring
        _ ≤ n * d' := Nat.mul_le_mul_right _ (Nat.div_mul_le_self n d)
        _ ≤ n' * d := h
    exact Nat.le_of_mul_le_mul_right h1 hd
  rcases Nat.lt_or_eq_of_le hq with hlt | heq
  · rcases roundHalfEven_cases n d with h1 | h1 <;> rcases roundHalfEven_cases n' d' with h2 | h2 <;> omega
  · have hn := Nat.div_add_mod n d
    have hn' := Nat.div_add_mod n' d'
    have hr : n % d * d' ≤ n' % d' * d := by
      have : (d * (n / d) + n % d) * d' ≤ (d' * (n' / d') + n' % d') * d := by rw [hn, hn']; exact h
      rw [← heq] at this
      have e1 : (d * (n / d) + n % d) * d' = d * d' * (n / d) + n % d * d' := by ring
      have e2 : (d' * (n / d) + n' % d') * d = d * d' * (n / d) + n' % d' * d := by ring
      omega
    unfold roundHalfEven
    rw [← heq]
    have key : d < 2 * (n % d) → d' < 2 * (n' % d') := by
      intro hlt
      have : d * d' < 2 * (n' % d') * d := by
        calc d * d' < 2 * (n % d) * d' := Nat.mul_lt_mul_of_pos_right hlt hd'
          _ = 2 * (n % d * d') := by ring
          _ ≤ 2 * (n' % d' * d) := by omega
          _ = 2 * (n' % d') * d := by ring
      exact Nat.lt_of_mul_lt_mul_right (a := d) (by rwa [Nat.mul_comm d' d])
    have key' : 2 * (n' % d') < d' → 2 * (n % d) < d := by
      intro hlt
      have : 2 * (n % d) * d' < d * d' := by
        calc 2 * (n % d) * d' = 2 * (n % d * d') := by ring
          _ ≤ 2 * (n' % d' * d) := by omega
          _ = 2 * (n' % d') * d := by ring
          _ < d' * d := Nat.mul_lt_mul_of_pos_right hlt hd
          _ = d * d' := Nat.mul_comm _ _
      exact Nat.lt_of_mul_lt_mul_right this
    split_ifs <;> omega

/-! ## The fields of a pattern -/

theorem signOf_eq (v : F64) : signOf v = decide (2 ^ 63 ≤ v.toNat) := by
  rw [signOf, BitVec.getLsbD, Nat.testBit_eq_decide_div_mod_eq, decide_eq_decide]
  have := v.isLt
  omega

theorem exponentOf_eq (v : F64) : exponentOf v = biasedExponent v := by
  simp [exponentOf, biasedExponent, BitVec.extractLsb'_toNat, Nat.shiftRight_eq_div_pow]

theorem fractionOf_eq (v : F64) : fractionOf v = fractionField v := by
  simp [fractionOf, fractionField, BitVec.extractLsb'_toNat]

/-- A finite pattern is viewed as a sign and a whole number of units. -/
theorem viewOf_of_isFinite {v : F64} (h : IsFinite v) :
    viewOf v = .finite (decide (2 ^ 63 ≤ v.toNat)) (magnitudeOf (biasedExponent v) (fractionField v)) := by
  rw [viewOf, exponentOf_eq, fractionOf_eq, signOf_eq, if_neg h]

theorem viewOf_of_isNaN {v : F64} (h : IsNaN v) : viewOf v = .nan := by
  rw [viewOf, exponentOf_eq, fractionOf_eq, if_pos h.1, if_neg h.2]

theorem isFinite_of_viewOf {v : F64} {neg : Bool} {mag : Nat} (h : viewOf v = .finite neg mag) : IsFinite v := by
  intro he
  rw [viewOf, exponentOf_eq, if_pos he] at h
  split at h <;> cases h

/-- The value of a finite pattern is its signed count of units, in units of `2^-1074`. -/
theorem f64Value_of_viewOf {v : F64} {neg : Bool} {mag : Nat} (h : viewOf v = .finite neg mag) :
    f64Value v = (signedUnits neg mag : ℚ) / 2 ^ 1074 := by
  rw [viewOf_of_isFinite (isFinite_of_viewOf h)] at h
  cases h
  unfold f64Value magnitudeOf signedUnits
  have hp : (2 : ℚ) ^ 1075 = 2 ^ 1074 * 2 := pow_succ 2 1074
  generalize hP : (2 : ℚ) ^ 1074 = P at *
  have hP0 : P ≠ 0 := by rw [← hP]; positivity
  by_cases he : biasedExponent v = 0
  · by_cases hs : 2 ^ 63 ≤ v.toNat
    · simp only [he, hs, decide_true, if_true]; push_cast; ring
    · simp only [he, hs, decide_false, if_true, if_false, Bool.false_eq_true]; push_cast; ring
  · obtain ⟨e, he'⟩ := Nat.exists_eq_succ_of_ne_zero he
    have hpow : (2 : ℚ) ^ e.succ = 2 ^ e * 2 := pow_succ 2 e
    by_cases hs : 2 ^ 63 ≤ v.toNat
    · simp only [he', hs, decide_true, if_true, Nat.succ_ne_zero, if_false, Nat.succ_sub_one]
      rw [hp, hpow]; push_cast; field_simp
    · simp only [he', hs, decide_false, if_false, Nat.succ_ne_zero, Nat.succ_sub_one, Bool.false_eq_true]
      rw [hp, hpow]; push_cast; field_simp

/-! ## Packing -/

theorem pack_toNat (neg : Bool) {fields : Nat} (h : fields < 2 ^ 63) :
    (pack neg fields).toNat = fields + if neg then 2 ^ 63 else 0 := by
  cases neg <;> simp [pack] <;> omega

/-- A packed number of fields below those of infinity is finite and keeps its fields. -/
theorem viewOf_pack (neg : Bool) {fields : Nat} (h : fields < infinityFields) :
    viewOf (pack neg fields) = .finite neg (magnitudeOf (fields / 2 ^ 52) (fields % 2 ^ 52)) := by
  have h' : fields < 2047 * 2 ^ 52 := h
  have hlt : fields < 2 ^ 63 := by omega
  have hn := pack_toNat neg hlt
  have he : biasedExponent (pack neg fields) = fields / 2 ^ 52 := by
    rw [biasedExponent, hn]; cases neg <;> simp <;> omega
  have hf : fractionField (pack neg fields) = fields % 2 ^ 52 := by
    rw [fractionField, hn]; cases neg <;> simp; omega
  have hfin : IsFinite (pack neg fields) := by rw [IsFinite, he]; omega
  rw [viewOf_of_isFinite hfin, he, hf, hn]
  cases neg
  · simp; omega
  · simp

/-- The fields of `m * 2^e` units are `e * 2^52 + m`, for a significand below `2^53` that has its top bit when `e` is not 0. -/
theorem magnitudeOf_fields {m e : Nat} (hm : m < 2 ^ 53) (he : e = 0 ∨ 2 ^ 52 ≤ m) :
    magnitudeOf ((e * 2 ^ 52 + m) / 2 ^ 52) ((e * 2 ^ 52 + m) % 2 ^ 52) = m * 2 ^ e := by
  unfold magnitudeOf
  by_cases h52 : m < 2 ^ 52
  · have h0 : e = 0 := he.resolve_right (by omega)
    subst h0
    have h1 : (0 * 2 ^ 52 + m) / 2 ^ 52 = 0 := by omega
    rw [if_pos h1]; omega
  · have h1 : (e * 2 ^ 52 + m) / 2 ^ 52 = e + 1 := by omega
    have h2 : (e * 2 ^ 52 + m) % 2 ^ 52 = m - 2 ^ 52 := by omega
    rw [h1, h2, if_neg (by omega)]
    have : 2 ^ 52 + (m - 2 ^ 52) = m := by omega
    rw [this, Nat.add_sub_cancel]

/-! ## Rounding to a pattern -/

/-- The significand of a quotient has at most 53 bits once the dropped bits are off. -/
theorem lt_pow_droppedBits (q : Nat) : q < 2 ^ (53 + droppedBits q) := by
  rcases Nat.eq_zero_or_pos q with rfl | hq
  · positivity
  · have h := Nat.lt_log2_self (n := q)
    refine lt_of_lt_of_le h (Nat.pow_le_pow_right (by omega) ?_)
    unfold droppedBits; omega

/-- Where bits are dropped, the quotient has its top significand bit. -/
theorem pow_droppedBits_le {q : Nat} (h : droppedBits q ≠ 0) : 2 ^ (52 + droppedBits q) ≤ q := by
  have hq : q ≠ 0 := by rintro rfl; simp [droppedBits] at h
  have hl := Nat.log2_self_le hq
  have : 52 + droppedBits q = q.log2 := by unfold droppedBits at *; omega
  rwa [this]

/-- The dropped bits of `m * 2^e` are `e`, for a significand as in `magnitudeOf_fields`. -/
theorem droppedBits_of_significand {m e : Nat} (hm : m < 2 ^ 53) (he : e = 0 ∨ 2 ^ 52 ≤ m) :
    droppedBits (m * 2 ^ e) = e := by
  have hlt := lt_pow_droppedBits (m * 2 ^ e)
  have hup : m * 2 ^ e < 2 ^ (53 + e) := by
    rw [pow_add]; exact Nat.mul_lt_mul_of_pos_right hm (by positivity)
  have hge : droppedBits (m * 2 ^ e) ≤ e := by
    by_contra hc
    have h1 := pow_droppedBits_le (q := m * 2 ^ e) (by omega)
    have h2 : 2 ^ (53 + e) ≤ 2 ^ (52 + droppedBits (m * 2 ^ e)) := Nat.pow_le_pow_right (by omega) (by omega)
    omega
  rcases he with rfl | he
  · omega
  · by_contra hc
    have h1 : 2 ^ (53 + droppedBits (m * 2 ^ e)) ≤ 2 ^ (52 + e) := Nat.pow_le_pow_right (by omega) (by omega)
    have h2 : 2 ^ (52 + e) ≤ m * 2 ^ e := by rw [pow_add]; exact Nat.mul_le_mul_right _ he
    omega

/-- Every number of units has a significand and an exponent as in `magnitudeOf_fields` if it is `m * 2^e` with `m < 2^53`. -/
theorem significand_exists {m e : Nat} (hm : m < 2 ^ 53) :
    ∃ m' e', m * 2 ^ e = m' * 2 ^ e' ∧ m' < 2 ^ 53 ∧ (e' = 0 ∨ 2 ^ 52 ≤ m') ∧ e' ≤ e := by
  induction e generalizing m with
  | zero => exact ⟨m, 0, rfl, hm, .inl rfl, le_rfl⟩
  | succ e ih =>
    by_cases h : 2 ^ 52 ≤ m
    · exact ⟨m, e + 1, rfl, hm, .inr h, le_rfl⟩
    · obtain ⟨m', e', h1, h2, h3, h4⟩ := ih (m := 2 * m) (by omega)
      exact ⟨m', e', by rw [← h1, pow_succ]; ring, h2, h3, by omega⟩

/-- Rounding changes nothing where the exact result has a significand of 53 bits: the fields are those of the result. -/
theorem roundFields_exact {m e d : Nat} (hd : 0 < d) (hm : m < 2 ^ 53) (he : e = 0 ∨ 2 ^ 52 ≤ m)
    (hfin : e * 2 ^ 52 + m ≤ infinityFields) : roundFields (m * 2 ^ e * d) d = e * 2 ^ 52 + m := by
  have hq : m * 2 ^ e * d / d = m * 2 ^ e := Nat.mul_div_cancel _ hd
  have hdb : droppedBits (m * 2 ^ e) = e := droppedBits_of_significand hm he
  have harg : m * 2 ^ e * d = m * (d * 2 ^ e) := by ring
  simp only [roundFields, hq, hdb]
  rw [harg, roundHalfEven_exact m _ (by positivity)]
  exact Nat.min_eq_left hfin

/-- So a packed exact result stands for exactly that many units. -/
theorem viewOf_pack_roundFields_exact (neg : Bool) {m e d : Nat} (hd : 0 < d) (hm : m < 2 ^ 53)
    (he : e = 0 ∨ 2 ^ 52 ≤ m) (hfin : e * 2 ^ 52 + m < infinityFields) :
    viewOf (pack neg (roundFields (m * 2 ^ e * d) d)) = .finite neg (m * 2 ^ e) := by
  rw [roundFields_exact hd hm he hfin.le, viewOf_pack neg hfin, magnitudeOf_fields hm he]

/-! ## Sums -/

/-- What the shared sum gives on finite operands: the exact sum, packed once; the NaN pattern it is handed plays no part. -/
theorem sumOr_finite {nan a b : F64} {na nb : Bool} {ma mb : Nat} (ha : viewOf a = .finite na ma)
    (hb : viewOf b = .finite nb mb) :
    sumOr nan a b =
      if signedUnits na ma + signedUnits nb mb = 0 then pack (na && nb) 0
      else pack (decide (signedUnits na ma + signedUnits nb mb < 0))
        (roundFields (signedUnits na ma + signedUnits nb mb).natAbs 1) := by
  simp only [sumOr, ha, hb]

/-- Negation inverts the sign and nothing else. -/
theorem signOf_fneg (v : F64) : signOf (fneg v) = !signOf v := by simp [signOf, fneg]

theorem exponentOf_fneg (v : F64) : exponentOf (fneg v) = exponentOf v := by
  simp [exponentOf, fneg, BitVec.extractLsb'_xor]

theorem fractionOf_fneg (v : F64) : fractionOf (fneg v) = fractionOf v := by
  simp [fractionOf, fneg, BitVec.extractLsb'_xor]

theorem viewOf_fneg {v : F64} {neg : Bool} {mag : Nat} (h : viewOf v = .finite neg mag) :
    viewOf (fneg v) = .finite (!neg) mag := by
  have he : exponentOf v ≠ 2047 := by rw [exponentOf_eq]; exact isFinite_of_viewOf h
  rw [viewOf, if_neg he] at h
  rw [viewOf, exponentOf_fneg, fractionOf_fneg, signOf_fneg, if_neg he]
  cases h
  rfl

end Sys2Proof.Machine
end

