-- ==== Sys2Proof/Laws/Interleaver.lean ====
section
/-! SUPPORT. The bits of `spread`, `squash`, `interleave` and `deinterleave`. -/

namespace Sys2Proof.Machine

/-- After `n` rounds, bit `2i` holds bit `i` for `i < n`, and every other bit is zero. -/
theorem getLsbD_spreadLow (a : Lane) (n : Nat) (hn : n ≤ 32) (j : Nat) :
    (spreadLow a n).getLsbD j = (decide (j % 2 = 0) && decide (j / 2 < n) && a.getLsbD (j / 2)) := by
  induction n with
  | zero => simp [spreadLow]
  | succ n ih =>
    have ih := ih (by omega)
    rw [spreadLow, BitVec.getLsbD_or, ih]
    by_cases hj : j = 2 * n
    · subst hj
      have h1 : 2 * n % 2 = 0 := by omega
      have h2 : 2 * n / 2 = n := by omega
      cases ha : a.getLsbD n <;> (simp [h1, h2, ha]; try omega)
    · have hone : (if a.getLsbD n then 1#64 <<< (2 * n) else 0).getLsbD j = false := by
        split
        · simp [BitVec.getLsbD_one]; omega
        · simp
      rw [hone, Bool.or_false]
      by_cases he : j % 2 = 0
      · have : (j / 2 < n) ↔ (j / 2 < n + 1) := by omega
        simp [he, this]
      · simp [he]

@[simp] theorem getLsbD_spread (a : Lane) (j : Nat) :
    (spread a).getLsbD j = (decide (j % 2 = 0) && a.getLsbD (j / 2)) := by
  rw [spread, getLsbD_spreadLow a 32 (by omega)]
  by_cases h : j / 2 < 32
  · simp [h]
  · simp [h, BitVec.getLsbD_of_ge a (j / 2) (by omega)]

/-- After `n` rounds, bit `i` holds bit `2i` for `i < n`, and every other bit is zero. -/
theorem getLsbD_squashLow (w : Slot) (n : Nat) (hn : n ≤ 32) (j : Nat) :
    (squashLow w n).getLsbD j = (decide (j < n) && w.getLsbD (2 * j)) := by
  induction n with
  | zero => simp [squashLow]
  | succ n ih =>
    have ih := ih (by omega)
    rw [squashLow, BitVec.getLsbD_or, ih]
    by_cases hj : j = n
    · subst hj
      cases w.getLsbD (2 * j) <;> simp; omega
    · have hone : (if w.getLsbD (2 * n) then 1#32 <<< n else 0).getLsbD j = false := by
        split
        · simp [BitVec.getLsbD_one]; omega
        · simp
      rw [hone, Bool.or_false]
      have : (j < n) ↔ (j < n + 1) := by omega
      simp [this]

@[simp] theorem getLsbD_squash (w : Slot) (j : Nat) :
    (squash w).getLsbD j = (decide (j < 32) && w.getLsbD (2 * j)) := by
  rw [squash, getLsbD_squashLow w 32 (by omega)]

/-- An even position of a code holds a bit of the even lane. -/
theorem getLsbD_interleave_even (x y : Lane) (i : Nat) : (interleave x y).getLsbD (2 * i) = x.getLsbD i := by
  have h1 : 2 * i % 2 = 0 := by omega
  have h2 : 2 * i / 2 = i := by omega
  have h3 : ¬ (1 ≤ 2 * i ∧ (2 * i - 1) % 2 = 0) := by omega
  rw [interleave, BitVec.getLsbD_or, BitVec.getLsbD_shiftLeft, getLsbD_spread, getLsbD_spread, h1, h2]
  rcases Nat.lt_or_ge (2 * i) 1 with h | h
  · simp [h]
  · have : ¬ (2 * i - 1) % 2 = 0 := fun h' => h3 ⟨h, h'⟩
    simp [this]

/-- An odd position of a code holds a bit of the odd lane. -/
theorem getLsbD_interleave_odd (x y : Lane) (i : Nat) : (interleave x y).getLsbD (2 * i + 1) = y.getLsbD i := by
  have h1 : ¬ (2 * i + 1) % 2 = 0 := by omega
  rw [interleave, BitVec.getLsbD_or, BitVec.getLsbD_shiftLeft, getLsbD_spread, getLsbD_spread]
  by_cases h : 2 * i + 1 < 64
  · simp [h]
  · rw [BitVec.getLsbD_of_ge y i (by omega)]; simp [h]

@[simp] theorem getLsbD_deinterleave_even (v : Slot) (i : Nat) :
    (deinterleave v).even.getLsbD i = (decide (i < 32) && v.getLsbD (2 * i)) := by
  simp [deinterleave]

@[simp] theorem getLsbD_deinterleave_odd (v : Slot) (i : Nat) :
    (deinterleave v).odd.getLsbD i = (decide (i < 32) && v.getLsbD (2 * i + 1)) := by
  simp [deinterleave, Nat.add_comm]

end Sys2Proof.Machine
end

