-- ==== Sys2Proof/Laws/Neighbor.lean ====
section
/-! SUPPORT. The windowed masks bit by bit, and the moves that do nothing. -/

namespace Sys2Proof.Machine

theorem getLsbD_evenMask (j : Nat) : evenMask.getLsbD j = (decide (j < 64) && decide (j % 2 = 0)) := by
  by_cases h : j < 64
  · have : ∀ i : Fin 64, evenMask.getLsbD i = decide (i.val % 2 = 0) := by decide
    simpa [h] using this ⟨j, h⟩
  · simp [h, BitVec.getLsbD_of_ge evenMask j (by omega)]

theorem getLsbD_oddMask (j : Nat) : oddMask.getLsbD j = (decide (j < 64) && decide (j % 2 = 1)) := by
  by_cases h : j < 64
  · have : ∀ i : Fin 64, oddMask.getLsbD i = decide (i.val % 2 = 1) := by decide
    simpa [h] using this ⟨j, h⟩
  · simp [h, BitVec.getLsbD_of_ge oddMask j (by omega)]

/-- `EVEN_W(s)` holds the even positions below `2s` (R125). -/
theorem getLsbD_evenWindow {s : Nat} (h : s ≤ 32) (j : Nat) :
    (evenWindow s).getLsbD j = (decide (j < 2 * s) && decide (j % 2 = 0)) := by
  rw [evenWindow, BitVec.getLsbD_ushiftRight, getLsbD_evenMask]
  have h1 : (64 - 2 * s + j < 64) ↔ (j < 2 * s) := by omega
  have h2 : (64 - 2 * s + j) % 2 = j % 2 := by omega
  simp [h1, h2]

/-- `ODD_W(s)` holds the odd positions below `2s` (R125). -/
theorem getLsbD_oddWindow {s : Nat} (h : s ≤ 32) (j : Nat) :
    (oddWindow s).getLsbD j = (decide (j < 2 * s) && decide (j % 2 = 1)) := by
  rw [oddWindow, BitVec.getLsbD_ushiftRight, getLsbD_oddMask]
  have h1 : (64 - 2 * s + j < 64) ↔ (j < 2 * s) := by omega
  have h2 : (64 - 2 * s + j) % 2 = j % 2 := by omega
  simp [h1, h2]

/-- A direction of 0 returns the code untouched (R131). -/
@[simp] theorem moveX_zero (bits : Slot) (s : Nat) : moveX bits s 0 = bits := by simp [moveX]

@[simp] theorem moveY_zero (bits : Slot) (s : Nat) : moveY bits s 0 = bits := by simp [moveY]

/-- Only the sign of a direction matters (R131). -/
theorem moveX_sign (bits : Slot) (s : Nat) (d : Int) : moveX bits s d = moveX bits s d.sign := by
  rcases lt_trichotomy d 0 with h | h | h
  · simp [moveX, stepLane, h.ne, Int.sign_eq_neg_one_of_neg h, not_lt.2 h.le]
  · simp [h]
  · simp [moveX, stepLane, h.ne', h, Int.sign_eq_one_of_pos h]

theorem moveY_sign (bits : Slot) (s : Nat) (d : Int) : moveY bits s d = moveY bits s d.sign := by
  rcases lt_trichotomy d 0 with h | h | h
  · simp [moveY, stepLane, h.ne, Int.sign_eq_neg_one_of_neg h, not_lt.2 h.le]
  · simp [h]
  · simp [moveY, stepLane, h.ne', h, Int.sign_eq_one_of_pos h]

end Sys2Proof.Machine
end

