-- ==== Sys2Proof/Laws/State.lean ====
section
/-! SUPPORT. The fields of the state after each named update. -/

namespace Sys2Proof.Machine

variable (s : State) (p : InService) (rsp : Response) (n : Nat) (q : Request)

@[simp] theorem State.readK_eq : s.readK = s.k := rfl

@[simp] theorem State.deliver_k : (s.deliver p rsp).k = s.k := rfl
@[simp] theorem State.deliver_issued : (s.deliver p rsp).issued = s.issued := rfl
@[simp] theorem State.deliver_inService : (s.deliver p rsp).inService = none := rfl
@[simp] theorem State.deliver_responses :
    (s.deliver p rsp).responses = s.responses ++ [{ requester := p.requester, rsp := rsp }] := rfl

@[simp] theorem waitOne_k : (waitOne s p n).k = s.k := rfl
@[simp] theorem waitOne_issued : (waitOne s p n).issued = s.issued := rfl
@[simp] theorem waitOne_inService :
    (waitOne s p n).inService = some { requester := p.requester, req := p.req, wait := n } := rfl
@[simp] theorem waitOne_responses : (waitOne s p n).responses = s.responses := rfl

@[simp] theorem State.issue_k : (s.issue n q).k = s.k := rfl
@[simp] theorem State.issue_issued : (s.issue n q).issued = s.issued ++ [{ requester := n, req := q }] := rfl
@[simp] theorem State.issue_inService : (s.issue n q).inService = s.inService := rfl
@[simp] theorem State.issue_responses : (s.issue n q).responses = s.responses := rfl

@[simp] theorem State.collect_k : (s.collect n).k = s.k := rfl
@[simp] theorem State.collect_issued : (s.collect n).issued = s.issued := rfl
@[simp] theorem State.collect_inService : (s.collect n).inService = s.inService := rfl
@[simp] theorem State.collect_responses : (s.collect n).responses = s.responses.eraseP (isFor n) := rfl

@[simp] theorem State.reset_k : State.reset.k = hardwiredK := rfl
@[simp] theorem State.reset_issued : State.reset.issued = [] := rfl
@[simp] theorem State.reset_inService : State.reset.inService = none := rfl
@[simp] theorem State.reset_responses : State.reset.responses = [] := rfl

@[simp] theorem State.assertReset_eq : s.assertReset = State.reset := rfl

variable (nbits w : Nat)

@[simp] theorem State.withFetchWord_k : (s.withFetchWord nbits w).k = s.k := rfl
@[simp] theorem State.withFetchWord_issued : (s.withFetchWord nbits w).issued = s.issued := rfl
@[simp] theorem State.withFetchWord_responses : (s.withFetchWord nbits w).responses = s.responses := rfl
@[simp] theorem State.withFetchWord_inService :
    (s.withFetchWord nbits w).inService = some (requestOfWord s (BitVec.ofNat 32 (w % 2 ^ nbits))) := rfl

/-- Accepting a request touches neither the constants nor the responses. -/
@[simp] theorem acceptNext_k : (acceptNext s).k = s.k := by
  unfold acceptNext; split <;> rfl

@[simp] theorem acceptNext_responses : (acceptNext s).responses = s.responses := by
  unfold acceptNext; split <;> rfl

theorem acceptNext_of_idle (h : s.issued = []) : acceptNext s = s := by simp [acceptNext, h]

theorem acceptNext_of_issued (w : Issued) (rest : List Issued) (h : s.issued = w :: rest) :
    acceptNext s = { s with
      issued := rest
      inService := some { requester := w.requester, req := w.req, wait := latencyOf w.req } } := by
  simp [acceptNext, h]

end Sys2Proof.Machine
end

