-- ==== Sys2Proof/Laws/Ops.lean ====
section
/-! SUPPORT. What each shared operation can do, said once: answering a request, reporting a failure, the tests. -/

namespace Sys2Proof.Machine

/-! ## Answering -/

theorem answer_of_inService {s : State} {p : InService} (f : ConstRegs → Request → Response)
    (h : s.inService = some p) : answer s f = .next (s.deliver p (f s.k p.req)) := by
  simp [answer, h]

theorem answer_of_no_request {s : State} (f : ConstRegs → Request → Response) (h : s.inService = none) :
    answer s f = .next s := by
  simp [answer, h]

/-- An answer is always a next state: the same state when nothing is in progress, else the delivered response. -/
theorem answer_cases (s : State) (f : ConstRegs → Request → Response) :
    (s.inService = none ∧ answer s f = .next s) ∨
      ∃ p, s.inService = some p ∧ answer s f = .next (s.deliver p (f s.k p.req)) := by
  cases h : s.inService with
  | none => exact .inl ⟨rfl, answer_of_no_request f h⟩
  | some p => exact .inr ⟨p, rfl, answer_of_inService f h⟩

theorem deliver_answeredWith (s : State) (p : InService) (rsp : Response) : AnsweredWith s p rsp (s.deliver p rsp) :=
  ⟨rfl, rfl, rfl, rfl⟩

/-- The frame determines the next state. -/
theorem eq_deliver_of_answeredWith {s t : State} {p : InService} {rsp : Response} (h : AnsweredWith s p rsp t) :
    t = s.deliver p rsp := by
  obtain ⟨hk, hi, hs, hr⟩ := h
  cases t
  simp_all [State.deliver]

/-! ## Failures -/

theorem raiseFailure_eq (e : Failure) : raiseFailure e = failureResponse (failureCode e) := rfl

theorem failureCode_le (e : Failure) : (failureCode e).toNat ≤ 5 := by cases e <;> decide

theorem failureCode_ne_zero (e : Failure) : failureCode e ≠ 0 := by cases e <;> decide

theorem failureCode_injective {e e' : Failure} (h : failureCode e = failureCode e') : e = e' := by
  cases e <;> cases e' <;> first | rfl | (revert h; decide)

theorem raiseFailure_lawful (e : Failure) : LawfulResponse (raiseFailure e) :=
  ⟨failureCode_le e, fun _ => rfl⟩

/-- A success carries no failure: it is lawful whatever it writes. -/
theorem lawful_of_status_zero {r : Response} (h : r.status = 0) : LawfulResponse r :=
  ⟨by simp [h], fun hn => absurd h hn⟩

@[simp] theorem firstFailure_nil : firstFailure [] = none := rfl
@[simp] theorem firstFailure_some (e : Failure) (rest : List (Option Failure)) :
    firstFailure (some e :: rest) = some e := rfl
@[simp] theorem firstFailure_none (rest : List (Option Failure)) :
    firstFailure (none :: rest) = firstFailure rest := rfl

/-- The reported failure is one of those tested. -/
theorem firstFailure_mem {tests : List (Option Failure)} {e : Failure} (h : firstFailure tests = some e) :
    some e ∈ tests := by
  induction tests with
  | nil => simp at h
  | cons t rest ih =>
    cases t with
    | none => simpa using ih (by simpa using h)
    | some e' => simp_all

theorem guarded_ok {α : Type} {tests : List (Option Failure)} (v : α) (h : firstFailure tests = none) :
    guarded tests v = .ok v := by simp [guarded, h]

theorem guarded_error {α : Type} {tests : List (Option Failure)} {e : Failure} (v : α) (h : firstFailure tests = some e) :
    guarded tests v = .error e := by simp [guarded, h]

@[simp] theorem respondWith_ok {α : Type} (v : α) (write : α → Response) : respondWith (.ok v) write = write v := rfl
@[simp] theorem respondWith_error {α : Type} (e : Failure) (write : α → Response) :
    respondWith (.error e) write = raiseFailure e := rfl

/-- A guarded computation whose success writes status 0 gives a lawful response. -/
theorem respondWith_guarded_lawful {α : Type} (tests : List (Option Failure)) (v : α) (write : α → Response)
    (h : (write v).status = 0) : LawfulResponse (respondWith (guarded tests v) write) := by
  cases hf : firstFailure tests with
  | none => simpa [guarded, hf] using lawful_of_status_zero h
  | some e => simpa [guarded, hf] using raiseFailure_lawful e

/-! ## The tests -/

theorem newCodeStepFailure_of_legal {step : Step} (h : LegalStep step) : newCodeStepFailure step = none := by
  simp [newCodeStepFailure, h.1, h.2]

theorem newCodeStepFailure_of_illegal {step : Step} (h : ¬ LegalStep step) :
    newCodeStepFailure step = some .invalidStep := by
  simp only [newCodeStepFailure, LegalStep] at *
  rw [if_neg h]

theorem givenCodeStepFailure_of_zero {step : Step} (h : step.toNat = 0) :
    givenCodeStepFailure step = some .emptyCode := by
  have : step = 0 := BitVec.eq_of_toNat_eq (by simpa using h)
  simp [givenCodeStepFailure, this]

theorem givenCodeStepFailure_of_large {step : Step} (h : 32 < step.toNat) :
    givenCodeStepFailure step = some .invalidStep := by
  have hz : step ≠ 0#16 := by rintro rfl; simp at h
  simp [givenCodeStepFailure, hz, h]

theorem givenCodeStepFailure_of_legal {step : Step} (h : LegalStep step) : givenCodeStepFailure step = none := by
  have hz : step ≠ 0#16 := by rintro rfl; simp [LegalStep] at h
  have hl : ¬ 32 < step.toNat := Nat.not_lt.2 h.2
  simp [givenCodeStepFailure, hz, hl]

theorem domainFailure_of_ok {k : ConstRegs} (h : domainOk k = true) : domainFailure k = none := by
  simp [domainFailure, h]

theorem domainOk_hardwired : domainOk hardwiredK = true := by decide +kernel

theorem domainFailure_hardwired : domainFailure hardwiredK = none := domainFailure_of_ok domainOk_hardwired

theorem coordOk_iff (k : ConstRegs) (lon lat : F64) : coordOk k lon lat = true ↔ InDomain k lon lat := by
  simp [coordOk, InDomain, and_assoc]

theorem coordFailure_of_inDomain {k : ConstRegs} {lon lat : F64} (h : InDomain k lon lat) :
    coordFailure k lon lat = none := by
  simp [coordFailure, (coordOk_iff k lon lat).2 h]

theorem coordFailure_of_outside {k : ConstRegs} {lon lat : F64} (h : ¬ InDomain k lon lat) :
    coordFailure k lon lat = some .coordinateOutOfDomain := by
  have : coordOk k lon lat = false := by simpa using mt (coordOk_iff k lon lat).1 h
  simp [coordFailure, this]

end Sys2Proof.Machine
end

