-- ==== Sys2Proof/Laws/PerInstr.lean ====
section
/-! SUPPORT. The family `RoundTrip`: decoding the encoding of a well-formed instruction gives it back, one lemma per
constructor. -/

namespace Sys2Proof.Laws.RoundTrip

/-- A well-formed instruction is what its encoding decodes to. -/
def Statement (i : Instr) : Prop := i.wellFormed = true → Sys2Proof.decode (Sys2Proof.encode i) = .ok i

theorem range : Statement .range := fun _ => by decide
theorem interleave : Statement .interleave := fun _ => by decide
theorem deinterleave : Statement .deinterleave := fun _ => by decide
theorem quant : Statement .quant := fun _ => by decide
theorem encode : Statement .encode := fun _ => by decide
theorem decode : Statement .decode := fun _ => by decide
theorem decodec : Statement .decodec := fun _ => by decide
theorem neighbors : Statement .neighbors := fun _ => by decide

/-- The directions a well-formed MOVE can have (R54). -/
theorem legalDirection_cases {d : Int} (h : legalDirection d = true) : d = 0 ∨ d = 1 ∨ d = -1 := by
  simpa [legalDirection, or_assoc] using h

theorem move (dirx diry : Int) : Statement (.move dirx diry) := by
  intro h
  simp only [Instr.wellFormed, Bool.and_eq_true] at h
  obtain ⟨hx, hy⟩ := h
  rcases legalDirection_cases hx with rfl | rfl | rfl <;>
    rcases legalDirection_cases hy with rfl | rfl | rfl <;> decide

end Sys2Proof.Laws.RoundTrip
end

