-- ==== Sys2Proof/Laws/Port.lean ====
section
/-! SUPPORT. The byte strings of the packets. -/

namespace Sys2Proof.Machine

@[simp] theorem littleEndian_length (n v : Nat) : (littleEndian n v).length = n := by
  induction n generalizing v with
  | zero => rfl
  | succ n ih => simp [littleEndian, ih]

/-- Reading the bytes of a number gives its low `n` bytes back. -/
theorem fromLittleEndian_littleEndian (n v : Nat) : fromLittleEndian (littleEndian n v) = v % 256 ^ n := by
  induction n generalizing v with
  | zero => simp [littleEndian, fromLittleEndian, Nat.mod_one]
  | succ n ih =>
    have h : 256 ^ (n + 1) = 256 * 256 ^ n := Nat.pow_succ'
    rw [littleEndian, fromLittleEndian, ih, BitVec.toNat_ofNat, h, Nat.mod_mul]

end Sys2Proof.Machine
end

