-- ==== Sys2Proof/Laws/Step.lean ====
section
/-! SUPPORT. What an arm of `exec` and a step can do. -/

namespace Sys2Proof.Machine

/-- Every arm answers the request in progress with its command's response. -/
theorem exec_eq_answer (i : Instr) (s : State) : exec i s = answer s (commandResponse i) := by
  cases i <;> rfl

theorem exec_of_inService {s : State} {p : InService} (i : Instr) (h : s.inService = some p) :
    exec i s = .next (s.deliver p (commandResponse i s.k p.req)) := by
  rw [exec_eq_answer, answer_of_inService _ h]

/-- Serving a request answers it with `respond`, legal word or not. -/
theorem serve_eq_answer {s : State} {p : InService} (h : s.inService = some p) :
    serve s p = .next (s.deliver p (respond s.k p.req)) := by
  cases hd : decode p.req.cmd with
  | ok i => simp only [serve, respond, hd, exec_of_inService i h]
  | error _ => simp only [serve, respond, hd, answer_of_inService _ h]

theorem step_of_serving {s : State} {p : InService} (h : Serving s p) :
    step s = .next (s.deliver p (respond s.k p.req)) := by
  obtain ⟨hs, hw⟩ := h
  have : step s = serve s p := by simp only [step, hs, hw]
  rw [this, serve_eq_answer hs]

theorem step_of_waiting {s : State} {p : InService} {n : Nat} (hs : s.inService = some p) (hw : p.wait = n + 1) :
    step s = .next (waitOne s p n) := by
  simp only [step, hs, hw]

theorem step_of_no_request {s : State} (hs : s.inService = none) : step s = .next (acceptNext s) := by
  simp only [step, hs]

/-- Everything a step can do: accept the oldest request (or stay idle), let one step of latency go by, or answer the request
in progress. -/
theorem step_cases {s t : State} (h : step s = .next t) :
    (s.inService = none ∧ t = acceptNext s) ∨
    (∃ p n, s.inService = some p ∧ p.wait = n + 1 ∧ t = waitOne s p n) ∨
    (∃ p, Serving s p ∧ t = s.deliver p (respond s.k p.req)) := by
  cases hs : s.inService with
  | none =>
    rw [step_of_no_request hs] at h
    exact .inl ⟨rfl, (Host.Outcome.next.inj h).symm⟩
  | some p =>
    cases hw : p.wait with
    | zero =>
      rw [step_of_serving ⟨hs, hw⟩] at h
      exact .inr (.inr ⟨p, ⟨hs, hw⟩, (Host.Outcome.next.inj h).symm⟩)
    | succ n =>
      rw [step_of_waiting hs hw] at h
      exact .inr (.inl ⟨p, n, rfl, hw, (Host.Outcome.next.inj h).symm⟩)

/-- No step touches the constant registers. -/
theorem step_keeps_k {s t : State} (h : step s = .next t) : t.k = s.k := by
  obtain ⟨_, rfl⟩ | ⟨p, n, _, _, rfl⟩ | ⟨p, _, rfl⟩ := step_cases h <;> simp

end Sys2Proof.Machine
end

