-- ==== Sys2Proof/Laws/System.lean ====
section
/-! SUPPORT. Runs: how they compose, and what each move leaves alone. -/

namespace Sys2Proof.Machine

@[simp] theorem runMoves_nil (s : State) : runMoves [] s = s := rfl
@[simp] theorem runMoves_cons (m : Move) (rest : List Move) (s : State) :
    runMoves (m :: rest) s = runMoves rest (s.afterMove m) := rfl

theorem runMoves_append (moves moves' : List Move) (s : State) :
    runMoves (moves ++ moves') s = runMoves moves' (runMoves moves s) := by
  induction moves generalizing s with
  | nil => rfl
  | cons m rest ih => exact ih _

/-- A property of states that every move keeps holds after every run. -/
theorem runMoves_keeps {P : State → Prop} (hm : ∀ m s, P s → P (s.afterMove m)) (moves : List Move) (s : State)
    (hs : P s) : P (runMoves moves s) := by
  induction moves generalizing s with
  | nil => exact hs
  | cons m rest ih => exact ih _ (hm m s hs)

theorem afterStep_of_next {s t : State} (h : step s = .next t) : s.afterStep = t := by
  simp [State.afterStep, h]

/-- The engine's step as a move: one of the three things a step can do. -/
theorem afterStep_cases (s : State) :
    (s.inService = none ∧ s.afterStep = acceptNext s) ∨
    (∃ p n, s.inService = some p ∧ p.wait = n + 1 ∧ s.afterStep = waitOne s p n) ∨
    (∃ p, Serving s p ∧ s.afterStep = s.deliver p (respond s.k p.req)) := by
  cases hs : s.inService with
  | none => exact .inl ⟨rfl, afterStep_of_next (step_of_no_request hs)⟩
  | some p =>
    cases hw : p.wait with
    | zero => exact .inr (.inr ⟨p, ⟨hs, hw⟩, afterStep_of_next (step_of_serving ⟨hs, hw⟩)⟩)
    | succ n => exact .inr (.inl ⟨p, n, rfl, hw, afterStep_of_next (step_of_waiting hs hw)⟩)

/-- Only a reset writes the constant registers. -/
theorem afterMove_k (s : State) (m : Move) (h : m ≠ .assertReset) : (s.afterMove m).k = s.k := by
  cases m with
  | engine =>
    obtain ⟨_, h⟩ | ⟨p, n, _, _, h⟩ | ⟨p, _, h⟩ := afterStep_cases s <;> simp [State.afterMove, h]
  | issue r q => rfl
  | collect r => rfl
  | assertReset => exact absurd rfl h

end Sys2Proof.Machine
end

