-- ==== Sys2Proof/Tests/Slice0.lean ====
section
/-! SUPPORT. Small tests on the spec's own vectors (spec/95_test_vectors.md; the vector's name is given with each), the smoke
test of WellFormed, and for each statement with hypotheses a theorem that meets them. -/

namespace Sys2Proof.Tests

open Sys2Proof.Machine

/-- A request as the tests write it. -/
def reqOf (cmd : CommandWord) (a b : Slot) (s : Step) : Request := { cmd := cmd, a := a, b := b, s := s }

/-- The state after reset with one request of requester 7 in progress, its latency over. -/
def serving (q : Request) : State :=
  { State.reset with inService := some { requester := 7, req := q, wait := 0 } }

/-- The response the next step gives. -/
def stepResponse (q : Request) : Option Response :=
  match step (serving q) with
  | .next t => (t.nextResponse 7)
  | .fault _ => none
  | .refused _ => none

/-! ## WellFormed -/

theorem test_wellFormed_accepts_move : (Instr.move (-1) 1).wellFormed = true := by decide
theorem test_wellFormed_refuses_dirx : (Instr.move 2 0).wellFormed = false := by decide
theorem test_wellFormed_refuses_diry : (Instr.move 0 (-2)).wellFormed = false := by decide

/-! ## Decoding: the words written out from the formats of R51 and R52 -/

theorem test_decode_range : decodeTableWord 32 0b00000000000000000000000000000001 = some .range := by decide
theorem test_decode_interleave : decodeTableWord 32 0b00000000000000000000000000000010 = some .interleave := by decide
theorem test_decode_deinterleave : decodeTableWord 32 0b00000000000000000000000000000011 = some .deinterleave := by decide
theorem test_decode_quant : decodeTableWord 32 0b00000000000000000000000000000100 = some .quant := by decide
theorem test_decode_encode : decodeTableWord 32 0b00000000000000000000000000000101 = some .encode := by decide
theorem test_decode_decode : decodeTableWord 32 0b00000000000000000000000000000110 = some .decode := by decide
theorem test_decode_decodec : decodeTableWord 32 0b00000000000000000000000000000111 = some .decodec := by decide
/-- SOUTHEAST of R61: `dy` = 0b11, `dx` = 0b01. -/
theorem test_decode_move : decodeTableWord 32 0b00000000000000000000110100001000 = some (.move 1 (-1)) := by decide
theorem test_decode_neighbors : decodeTableWord 32 0b00000000000000000000000000001001 = some .neighbors := by decide

/-- L2, L4, L8 and L11: each ground of R57 by name. -/
theorem test_decode_rejects :
    Sys2Proof.decode 0x0000000A#32 = .error .reservedOpcode ∧
    Sys2Proof.decode 0x00000101#32 = .error .nonzeroZeroField ∧
    Sys2Proof.decode 0x00000808#32 = .error .reservedDirection ∧
    Sys2Proof.decode 0x00001008#32 = .error .nonzeroZeroField := by decide

/-- `withFetchWord` makes the next step run the word's command. -/
theorem test_fetch_word :
    step (State.reset.withFetchWord 32 0x408) = exec (.move 0 1) (State.reset.withFetchWord 32 0x408) := rfl

/-! ## One or two vectors per command -/

/-- G1. -/
theorem test_range : stepResponse (reqOf 1 5 6 7) =
    some { failureResponse 0 with
      r0 := 0xC0554345B1A57F00#64, r1 := 0x40554345B1A57F00#64, r2 := 0xC066800000000000#64,
      r3 := 0x4066800000000000#64, rs := 26 } := by decide

/-- I9 with unused operand bits set. -/
theorem test_interleave : stepResponse (reqOf 2 0xFFFFFFFF00000003#64 0xDEADBEEF00000005#64 0xFFFF) =
    some { failureResponse 0 with r0 := 0x27 } := by decide +kernel

/-- I10. -/
theorem test_interleave_mixed : stepResponse (reqOf 2 0xDEADBEEF#64 0x12345678#64 0) =
    some { failureResponse 0 with r0 := 0x535C4E71677C7ED5#64 } := by decide +kernel

/-- X7. -/
theorem test_deinterleave : stepResponse (reqOf 3 0x0123456789ABCDEF#64 1 0) =
    some { failureResponse 0 with r0 := 0x11BB11BB, r1 := 0x0505AFAF } := by decide +kernel

/-- E1. -/
theorem test_quant : stepResponse (reqOf 4 0xC05586E7D4900FAD#64 0x4043F632B12D3416#64 26) =
    some { failureResponse 0 with r0 := 0x02F055D8, r1 := 0x010B1224, rs := 26 } := by decide +kernel

/-- E42: the step test comes before the coordinate test. -/
theorem test_quant_priority : stepResponse (reqOf 4 0x7FF8000000000000#64 0x7FF8000000000000#64 40) =
    some (failureResponse 1) := by decide +kernel

/-- E12: at step 32 the top of the domain wraps to lane 0. -/
theorem test_encode_top : stepResponse (reqOf 5 0x4066800000000000#64 0x40554345B1A57F00#64 32) =
    some { failureResponse 0 with rs := 32 } := by decide +kernel

/-- E25. -/
theorem test_encode : stepResponse (reqOf 5 0x4002D14E3BCD35A8#64 0x40486DA5119CE076#64 32) =
    some { failureResponse 0 with r0 := 0xD043C8B50E752E6F#64, rs := 32 } := by decide +kernel

/-- D8: a latitude bound that is rounded twice. -/
theorem test_decode : stepResponse (reqOf 6 0 9 32) =
    some { failureResponse 0 with
      r0 := 0xC0554345B1A57F00#64, r1 := 0xC0554345B17AF875#64, r2 := 0xC066800000000000#64,
      r3 := 0xC0667FFFFFD30000#64, rs := 32 } := by decide +kernel

/-- D18: both lanes all ones at step 1. -/
theorem test_decode_noncanonical : stepResponse (reqOf 6 0xFFFFFFFFFFFFFFFF#64 0 1) =
    some { failureResponse 0 with
      r0 := 0x42554345B17AF874#64, r1 := 0x42554345B1903BBA#64, r2 := 0x42667FFFFFD30000#64,
      r3 := 0x42667FFFFFE98000#64, r4 := 0xFFFFFFFFFFFFFFFF#64, rs := 1 } := by decide +kernel

/-- D14. -/
theorem test_decodec : stepResponse (reqOf 7 0x000D043C8B50E752#64 0 26) =
    some { failureResponse 0 with r0 := 0x40486DA50DAC4F42#64, r1 := 0x4002D14D38000000#64 } := by decide +kernel

/-- D19. -/
theorem test_decodec_empty : stepResponse (reqOf 7 5 0 0) = some (failureResponse 4) := by decide +kernel

/-- M18. -/
theorem test_move : stepResponse (reqOf 0xD08 0x27 0 3) = some { failureResponse 0 with r0 := 0x2C, rs := 3 } := by
  decide +kernel

/-- M13: both lanes wrap at step 32. -/
theorem test_move_wraps : stepResponse (reqOf 0x508 0xFFFFFFFFFFFFFFFF#64 0 32) =
    some { failureResponse 0 with rs := 32 } := by decide +kernel

/-- NB9. -/
theorem test_neighbors : stepResponse (reqOf 9 0x27 0 3) =
    some { status := 0, rs := 3, r0 := 0x32, r1 := 0x26, r2 := 0x2D, r3 := 0x25, r4 := 0x38, r5 := 0x30, r6 := 0x2C,
           r7 := 0x24 } := by decide +kernel

/-- NB15: bits above the window are dropped. -/
theorem test_neighbors_noncanonical : stepResponse (reqOf 9 0xFFFFFFFFFFFFFFFF#64 0 2) =
    some { status := 0, rs := 2, r0 := 0xA, r1 := 0xE, r2 := 0x5, r3 := 0xD, r4 := 0x0, r5 := 0x8, r6 := 0x4,
           r7 := 0xC } := by decide +kernel

/-- L7 with a step of 0: the illegal word comes first (R160). -/
theorem test_illegal_first : stepResponse (reqOf 0x208 7 0 0) = some (failureResponse 5) := by decide +kernel

/-- A domain of `lat = [0.0, 0.0]`: `InvalidDomain`, after the step test and before the coordinate test
(spec/95_test_vectors.md section 7). -/
theorem test_degenerate_domain :
    (commandResponse .encode { hardwiredK with latMin := 0, latMax := 0 } (reqOf 5 0 0 26)).status = 2 ∧
    (commandResponse .decode { hardwiredK with latMin := 0, latMax := 0 } (reqOf 6 0 0 26)).status = 2 := by
  decide +kernel

/-! ## Witnesses of the hypotheses of the statements -/

theorem witness_DecodeOfEncodeIsTheInstruction : (Instr.move 1 (-1)).wellFormed = true := by decide

theorem witness_DecodedWordIsTheEncoding : Sys2Proof.decode 0xF08#32 = .ok (.move (-1) (-1)) := by decide

theorem serving_serving (q : Request) : Serving (serving q) { requester := 7, req := q, wait := 0 } := ⟨rfl, rfl⟩

/-- Words on each ground of R57, at the edges of the opcode table: 0x00, 0x0A, a zero field of each format, each field. -/
theorem witness_IllegalWordsAreAnswered :
    Serving (serving (reqOf 0x208 7 0 0)) { requester := 7, req := reqOf 0x208 7 0 0, wait := 0 } ∧
    (0x208 % 2 ^ 8 = 8 ∧ 0x208 / 2 ^ 8 % 4 = 2) ∧ (0x808 % 2 ^ 8 = 8 ∧ 0x808 / 2 ^ 10 % 4 = 2) ∧
    (0x1008 % 2 ^ 8 = 8 ∧ 0x1008 / 2 ^ 12 ≠ 0) ∧ (0x109 % 2 ^ 8 ≠ 8 ∧ 0x109 / 2 ^ 8 ≠ 0) ∧
    9 < 0x0A % 2 ^ 8 ∧ 0x100 % 2 ^ 8 = 0 := ⟨serving_serving _, by decide⟩

theorem witness_StepExecutesTheDecodedCommand :
    Serving (serving (reqOf 9 3 0 2)) { requester := 7, req := reqOf 9 3 0 2, wait := 0 } ∧
    Sys2Proof.decode (reqOf 9 3 0 2).cmd = .ok .neighbors := ⟨serving_serving _, by decide⟩

/-- A state in which a request waits to be accepted, and one in which the accepted request waits. -/
theorem witness_EngineIdlesAcceptsAndWaits :
    (State.reset.inService = none ∧ State.reset.issued = []) ∧
    ((State.reset.issue 3 (reqOf 1 0 0 0)).inService = none ∧
      (State.reset.issue 3 (reqOf 1 0 0 0)).issued = { requester := 3, req := reqOf 1 0 0 0 } :: []) ∧
    ({ State.reset with inService := some { requester := 3, req := reqOf 1 0 0 0, wait := 5 } } : State).inService =
      some { requester := 3, req := reqOf 1 0 0 0, wait := 4 + 1 } := ⟨⟨rfl, rfl⟩, ⟨rfl, rfl⟩, rfl⟩

theorem reset_safe : SafeState State.reset := ⟨rfl, by simp⟩

theorem serving_safe (q : Request) : SafeState (serving q) := ⟨rfl, by simp [serving]⟩

theorem witness_StepKeepsSafety :
    ∃ t, SafeState (serving (reqOf 1 0 0 0)) ∧ step (serving (reqOf 1 0 0 0)) = .next t ∧ t.responses ≠ [] :=
  ⟨_, serving_safe _, rfl, by decide⟩

theorem witness_MovesKeepSafety : SafeState (serving (reqOf 5 0 0 26)) := serving_safe _

theorem witness_ResponsesComeInOrderOnceEach : NoReset [.issue 1 (reqOf 1 0 0 0), .engine, .engine, .collect 1] := by
  simp [NoReset]

theorem witness_RequestersCannotObserveOneAnother :
    NoReset [.issue 1 (reqOf 1 0 0 0), .issue 2 (reqOf 0 0 0 0)] ∧ NoReset [.engine, .issue 1 (reqOf 1 0 0 0)] ∧
    issuedBy 1 [.issue 1 (reqOf 1 0 0 0), .issue 2 (reqOf 0 0 0 0)] = issuedBy 1 [.engine, .issue 1 (reqOf 1 0 0 0)] ∧
    (serving (reqOf 9 3 0 2)).k = State.reset.k ∧ owed 1 (serving (reqOf 9 3 0 2)) = owed 1 State.reset ∧
    owed 3 (runMoves [.issue 1 (reqOf 1 0 0 0)] State.reset) = [] := by
  refine ⟨by simp [NoReset], by simp [NoReset], by decide, rfl, by decide, by decide⟩

theorem witness_ResetDiscardsRequests :
    (serving (reqOf 9 3 0 2)).k = hardwiredK ∧ owed 7 (serving (reqOf 9 3 0 2)) ≠ [] := ⟨rfl, by decide⟩

theorem witness_DrainedEngineIsAsAfterReset : SafeState State.reset ∧ ∀ requester, owed requester State.reset = [] :=
  ⟨reset_safe, fun _ => rfl⟩

/-- Every statement about one command whose hypotheses are the hardwired constants, a request in progress and a legal step:
the two bounds of the steps. -/
theorem witness_servingLegal :
    (serving (reqOf 6 0x27 0 32)).k = hardwiredK ∧
    (serving (reqOf 6 0x27 0 32)).inService = some { requester := 7, req := reqOf 6 0x27 0 32, wait := 0 } ∧
    LegalStep (reqOf 6 0x27 0 32).s ∧ LegalStep (reqOf 6 0x27 0 1).s ∧ (reqOf 6 0x27 0 0).s.toNat = 0 ∧
    32 < (reqOf 6 0x27 0 33).s.toNat ∧ ¬ LegalStep (reqOf 6 0x27 0 0).s ∧ ¬ LegalStep (reqOf 6 0x27 0 33).s := by
  simp [serving, State.reset, reqOf, LegalStep]

theorem witness_ResponseDependsOnTheRequestOnly :
    Serving (serving (reqOf 9 3 0 2)) { requester := 7, req := reqOf 9 3 0 2, wait := 0 } ∧
    Serving { (serving (reqOf 9 3 0 2)).issue 1 (reqOf 1 0 0 0) with
      inService := some { requester := 8, req := reqOf 9 3 0 2, wait := 0 } }
      { requester := 8, req := reqOf 9 3 0 2, wait := 0 } := ⟨⟨rfl, rfl⟩, ⟨rfl, rfl⟩⟩

theorem witness_UnusedOperandBitsAreIgnored :
    SameOperands .interleave (reqOf 2 0xF00000003#64 5 1) (reqOf 2 3 0xA00000005#64 2) ∧
    SameOperands .decode (reqOf 6 3 5 1) (reqOf 6 3 9 1) := by
  simp [SameOperands, reqOf]

/-- The bounds of the domain are in it; the patterns just outside, a NaN and an infinity are not. -/
theorem witness_InDomain :
    InDomain hardwiredK 0xC066800000000000#64 0x40554345B1A57F00#64 ∧
    InDomain hardwiredK 0x4066800000000000#64 0xC0554345B1A57F00#64 ∧
    ¬ InDomain hardwiredK 0x4066800000000001#64 0 ∧ ¬ InDomain hardwiredK 0 0xC0554345B1A57F01#64 ∧
    ¬ InDomain hardwiredK 0x7FF8000000000000#64 0 ∧ ¬ IsFinite 0x7FF8000000000000#64 ∧
    ¬ IsFinite 0xFFF0000000000000#64 := by
  unfold InDomain IsFinite; decide +kernel

theorem witness_AdvisoryStepIsNeverCompared :
    26 < (reqOf 5 0 0 27).s.toNat ∧ (reqOf 5 0 0 32).s.toNat ≤ 32 ∧ InDomain hardwiredK 0 0 ∧
    Instr.encode ≠ Instr.range := by
  unfold InDomain; decide +kernel

theorem witness_DegenerateDomainIsReported :
    ¬ (fgt ({ hardwiredK with latMin := 0, latMax := 0 } : ConstRegs).latMax 0 = true) ∧ LegalStep 26#16 := by
  refine ⟨by decide +kernel, ?_⟩
  simp [LegalStep]

theorem witness_CoordinatesAreTested : (Instr.encode = .quant ∨ Instr.encode = .encode) ∧ LegalStep 1#16 := by
  simp [LegalStep]

theorem witness_CommandsThatCannotFail :
    (Instr.interleave = .range ∨ Instr.interleave = .interleave ∨ Instr.interleave = .deinterleave) ∧
    (serving (reqOf 2 3 5 0)).inService = some { requester := 7, req := reqOf 2 3 5 0, wait := 0 } := by
  simp [serving]

theorem witness_ComparisonsFollowTheValues :
    IsNaN 0x7FF8000000000000#64 ∧ IsFinite 0x8000000000000000#64 ∧ IsFinite 0x7FEFFFFFFFFFFFFF#64 := by
  unfold IsNaN IsFinite; decide

/-- The value of 1.0, from its fields. -/
theorem f64Value_one : f64Value 0x3FF0000000000000#64 = 1 := by
  rw [f64Value_of_viewOf (neg := false) (mag := 2 ^ 52 * 2 ^ 1022) (by decide +kernel)]
  rw [signedUnits, if_neg Bool.false_ne_true, ← pow_add]
  push_cast
  exact div_self (by positivity)

theorem two_le_largestFinite : (2 : ℚ) ≤ largestFinite := by
  have h : (1 : ℚ) ≤ 2 ^ 971 := one_le_pow₀ (by norm_num)
  unfold largestFinite
  generalize (2 : ℚ) ^ 971 = p at *
  norm_num
  linarith

theorem witness_ArithmeticRoundsToNearestEven :
    IsFinite 0x3FF0000000000000#64 ∧ f64Value 0x3FF0000000000000#64 ≠ 0 ∧
    |f64Value 0x3FF0000000000000#64 + f64Value 0x3FF0000000000000#64| ≤ largestFinite ∧
    |f64Value 0x3FF0000000000000#64 - f64Value 0x3FF0000000000000#64| ≤ largestFinite ∧
    |f64Value 0x3FF0000000000000#64 * f64Value 0x3FF0000000000000#64| ≤ largestFinite ∧
    |f64Value 0x3FF0000000000000#64 / f64Value 0x3FF0000000000000#64| ≤ largestFinite := by
  have h2 := two_le_largestFinite
  refine ⟨by unfold IsFinite; decide, ?_⟩
  rw [f64Value_one]
  norm_num
  refine ⟨?_, ?_, ?_⟩ <;> linarith

/-- Both sides of each case split of the statement about the top of the domain. -/
theorem witness_TopOfTheDomain :
    LegalStep 31#16 ∧ LegalStep 32#16 ∧ InDomain hardwiredK 0x40667FFFFFFFFFFF#64 0x40554345B1A57EFF#64 ∧
    InDomain hardwiredK 0x40667FFFFFFFFFFE#64 0x40554345B1A57EFE#64 := by
  refine ⟨by simp [LegalStep], by simp [LegalStep], ?_⟩
  unfold InDomain; decide +kernel

/-- The bottom of the domain is inside, with both offsets 0. -/
theorem witness_offsetsBelowOne :
    InDomain hardwiredK Config.lonMin Config.latMin ∧
    f64Value (fdiv (fsub Config.latMin Config.latMin) (fsub Config.latMax Config.latMin)) < 1 ∧
    f64Value (fdiv (fsub Config.lonMin Config.lonMin) (fsub Config.lonMax Config.lonMin)) < 1 := by
  have hl : fdiv (fsub Config.latMin Config.latMin) (fsub Config.latMax Config.latMin) = 0 := by decide +kernel
  have ho : fdiv (fsub Config.lonMin Config.lonMin) (fsub Config.lonMax Config.lonMin) = 0 := by decide +kernel
  have hz : f64Value 0 = 0 := by
    rw [f64Value_of_viewOf (neg := false) (mag := 0) (by decide)]
    simp [signedUnits]
  rw [hl, ho, hz]
  exact ⟨by unfold InDomain; decide +kernel, by norm_num, by norm_num⟩

theorem witness_SwappedCallIsRejected :
    (serving (reqOf 5 0x4043F632B12D3416#64 0xC05586E7D4900FAD#64 26)).k = hardwiredK ∧
    (serving (reqOf 5 0x4043F632B12D3416#64 0xC05586E7D4900FAD#64 26)).inService =
      some { requester := 7, req := reqOf 5 0x4043F632B12D3416#64 0xC05586E7D4900FAD#64 26, wait := 0 } := ⟨rfl, rfl⟩

theorem witness_FailedEncodeReadsAsTheEmptyCode :
    (commandResponse .encode hardwiredK (reqOf 5 0 0 0)).status ≠ 0 := by decide +kernel

theorem witness_DecodedValuesAreFinite :
    LegalStep (reqOf 6 0xFFFFFFFFFFFFFFFF#64 0 1).s ∧
    (commandResponse .decode hardwiredK (reqOf 6 0xFFFFFFFFFFFFFFFF#64 0 1)).r0 = 0x42554345B17AF874#64 := by
  refine ⟨by simp [reqOf, LegalStep], by decide +kernel⟩

theorem witness_CornerCells :
    LegalStep (reqOf 6 0 0 1).s ∧ (reqOf 6 0 0 1).a = 0 ∧
    (reqOf 6 0xFFFFFFFFFFFFFFFF#64 0 32).a = 0xFFFFFFFFFFFFFFFF#64 ∧ (reqOf 6 0xFFFFFFFFFFFFFFFF#64 0 32).s = 32#16 := by
  simp [reqOf, LegalStep]

/-- Both bounds of the steps and both signs of a direction: at step 1 the moved lane wraps, at step 32 it does not. -/
theorem witness_LaneMovesAreModular :
    ((1 ≤ 1 ∧ 1 ≤ 32) ∧ (1 : Int) ≠ 0 ∧ moveX 2 1 1 = 0) ∧ ((1 ≤ 32 ∧ 32 ≤ 32) ∧ (-1 : Int) ≠ 0 ∧ moveY 1 32 (-1) = 0) := by
  decide

theorem witness_MoveMovesTheLanes : (3#2 ≠ 2#2) ∧ (0#2 ≠ 2#2) := by decide

theorem witness_CanonicalCode : CanonicalCode 0xF#64 2#16 ∧ CanonicalCode 0xFFFFFFFFFFFFFFFF#64 32#16 := by
  simp [CanonicalCode, LegalStep]

theorem witness_DiagonalsComposeAxisMoves :
    LegalStep 1#16 ∧ LegalStep 32#16 ∧
    (respond hardwiredK (reqOf (Sys2Proof.encode (expandPseudo .northeast)) 0 0 1)).r0 = 3 := by
  refine ⟨by simp [LegalStep], by simp [LegalStep], by decide +kernel⟩

theorem witness_NeighborsAreCanonicalAndOther :
    LegalStep (reqOf 9 0xF 0 2).s ∧ 0xA#64 = (commandResponse .neighbors hardwiredK (reqOf 9 0xF 0 2)).r0 := by
  refine ⟨by simp [reqOf, LegalStep], by decide +kernel⟩

end Sys2Proof.Tests
end

section
namespace Sys2Proof.Machine

/-- A step that serves a decoded word is that word's arm of `exec`. -/
theorem step_eq_exec {s : State} {p : InService} {i : Instr} (h : Serving s p) (hd : decode p.req.cmd = .ok i) :
    step s = exec i s := by
  have hr : respond s.k p.req = commandResponse i s.k p.req := by simp only [respond, hd]
  rw [step_of_serving h, exec_of_inService i h.1, hr]

end Sys2Proof.Machine

/-- Settles O6: both sides deliver the response of the decoded command. -/
theorem stepExecutesTheDecodedCommand : Obligations.StepExecutesTheDecodedCommand :=
  fun _ _ _ => Sys2Proof.Machine.step_eq_exec
end

section
/-! The value of a finite pattern as a whole number of units of `2^-1074`, and the comparisons on it (R12). -/

namespace Sys2Proof.Machine

/-- The signed units of `2^-1074` in a finite pattern. -/
def unitsOf (v : F64) : Int :=
  signedUnits (decide (2 ^ 63 ≤ v.toNat)) (magnitudeOf (biasedExponent v) (fractionField v))

theorem f64Value_eq_unitsOf {v : F64} (h : IsFinite v) : f64Value v = (unitsOf v : ℚ) / 2 ^ 1074 :=
  f64Value_of_viewOf (viewOf_of_isFinite h)

theorem orderKey_of_isFinite {v : F64} (h : IsFinite v) : orderKey v = some (unitsOf v) := by
  simp only [orderKey, viewOf_of_isFinite h, unitsOf]

theorem orderKey_of_isNaN {v : F64} (h : IsNaN v) : orderKey v = none := by
  simp only [orderKey, viewOf_of_isNaN h]

theorem orderKey_posInfinity : orderKey 0x7FF0000000000000#64 = some (2 ^ 1024 * (unitsPerOne : Int)) := by
  have h : viewOf 0x7FF0000000000000#64 = .infinite false := by decide
  simp only [orderKey, h, signedUnits, Bool.false_eq_true, if_false, Nat.cast_mul, Nat.cast_pow, Nat.cast_ofNat]

theorem orderKey_negInfinity : orderKey 0xFFF0000000000000#64 = some (-(2 ^ 1024 * (unitsPerOne : Int))) := by
  have h : viewOf 0xFFF0000000000000#64 = .infinite true := by decide
  simp only [orderKey, h, signedUnits, if_true, Nat.cast_mul, Nat.cast_pow, Nat.cast_ofNat]

theorem f64Value_lt_iff {a b : F64} (ha : IsFinite a) (hb : IsFinite b) :
    f64Value a < f64Value b ↔ unitsOf a < unitsOf b := by
  rw [f64Value_eq_unitsOf ha, f64Value_eq_unitsOf hb, div_lt_div_iff_of_pos_right (by positivity), Int.cast_lt]

theorem f64Value_le_iff {a b : F64} (ha : IsFinite a) (hb : IsFinite b) :
    f64Value a ≤ f64Value b ↔ unitsOf a ≤ unitsOf b := by
  rw [← not_lt, f64Value_lt_iff hb ha, not_lt]

theorem flt_of_orderKey {a b : F64} {x y : Int} (ha : orderKey a = some x) (hb : orderKey b = some y) :
    flt a b = true ↔ x < y := by
  simp only [flt, ha, hb, decide_eq_true_eq]

theorem fle_of_orderKey {a b : F64} {x y : Int} (ha : orderKey a = some x) (hb : orderKey b = some y) :
    fle a b = true ↔ x ≤ y := by
  simp only [fle, ha, hb, decide_eq_true_eq]

theorem flt_iff_f64Value {a b : F64} (ha : IsFinite a) (hb : IsFinite b) :
    flt a b = true ↔ f64Value a < f64Value b := by
  rw [flt_of_orderKey (orderKey_of_isFinite ha) (orderKey_of_isFinite hb), f64Value_lt_iff ha hb]

theorem fle_iff_f64Value {a b : F64} (ha : IsFinite a) (hb : IsFinite b) :
    fle a b = true ↔ f64Value a ≤ f64Value b := by
  rw [fle_of_orderKey (orderKey_of_isFinite ha) (orderKey_of_isFinite hb), f64Value_le_iff ha hb]

theorem flt_of_isNaN {a b : F64} (h : IsNaN a ∨ IsNaN b) : flt a b = false := by
  rcases h with h | h
  · simp only [flt, orderKey_of_isNaN h]
  · cases ha : orderKey a <;> simp only [flt, ha, orderKey_of_isNaN h]

theorem fle_of_isNaN {a b : F64} (h : IsNaN a ∨ IsNaN b) : fle a b = false := by
  rcases h with h | h
  · simp only [fle, orderKey_of_isNaN h]
  · cases ha : orderKey a <;> simp only [fle, ha, orderKey_of_isNaN h]

/-- The magnitude of a finite value is a significand of at most 53 bits, shifted by at most 2045. -/
theorem magnitudeOf_eq_significand {v : F64} (h : IsFinite v) :
    ∃ m e, magnitudeOf (biasedExponent v) (fractionField v) = m * 2 ^ e ∧ m < 2 ^ 53 ∧ e ≤ 2045 := by
  have hf : fractionField v < 2 ^ 52 := Nat.mod_lt _ (by decide)
  have hlt : biasedExponent v < 2048 := Nat.mod_lt _ (by decide)
  have hne : biasedExponent v ≠ 2047 := h
  by_cases h0 : biasedExponent v = 0
  · exact ⟨fractionField v, 0, by simp [magnitudeOf, h0], by omega, by omega⟩
  · exact ⟨2 ^ 52 + fractionField v, biasedExponent v - 1, by rw [magnitudeOf, if_neg h0], by omega, by omega⟩

theorem abs_signedUnits (neg : Bool) (mag : Nat) : |signedUnits neg mag| = mag := by
  cases neg <;> simp [signedUnits]

/-- Every finite value lies strictly between the order keys of the infinities. -/
theorem abs_unitsOf_lt {v : F64} (h : IsFinite v) : |unitsOf v| < 2 ^ 1024 * (unitsPerOne : Int) := by
  obtain ⟨m, e, hmag, hm, he⟩ := magnitudeOf_eq_significand h
  have hlt : m * 2 ^ e < 2 ^ 1024 * unitsPerOne := by
    calc m * 2 ^ e < 2 ^ 53 * 2 ^ e := Nat.mul_lt_mul_of_pos_right hm (by positivity)
      _ ≤ 2 ^ 53 * 2 ^ 2045 := by gcongr; exact one_le_two
      _ = 2 ^ 1024 * unitsPerOne := by rw [unitsPerOne, ← pow_add, ← pow_add]
  rw [unitsOf, abs_signedUnits, hmag]
  exact_mod_cast hlt

end Sys2Proof.Machine

open Sys2Proof.Machine in
/-- Settles O27: the order keys of finite patterns are their values in units of `2^-1074`; a NaN has none. -/
theorem comparisonsFollowTheValues : Obligations.ComparisonsFollowTheValues := by
  intro a b
  refine ⟨fun h => ?_, fun ha hb => ?_, fun ha => ?_⟩
  · exact ⟨flt_of_isNaN h, fle_of_isNaN h, flt_of_isNaN h.symm, fle_of_isNaN h.symm⟩
  · exact ⟨flt_iff_f64Value ha hb, fle_iff_f64Value ha hb, flt_iff_f64Value hb ha, fle_iff_f64Value hb ha⟩
  · obtain ⟨hlow, hhigh⟩ := abs_lt.1 (abs_unitsOf_lt ha)
    exact ⟨(flt_of_orderKey (orderKey_of_isFinite ha) orderKey_posInfinity).2 hhigh,
      (flt_of_orderKey orderKey_negInfinity (orderKey_of_isFinite ha)).2 hlow⟩
end

section
/-! Rounding a quotient of units to nearest, ties to even, and the four operations of R12 that do it once. -/

namespace Sys2Proof.Machine

/-! ## The nearest integer -/

/-- The error of a rounded quotient is at most half of the divisor. -/
theorem two_mul_abs_roundHalfEven_le (n : Nat) {d : Nat} (hd : 0 < d) :
    2 * |(roundHalfEven n d : Int) * d - n| ≤ d := by
  obtain ⟨hup, hlow⟩ := roundHalfEven_near n d hd
  have hup' : 2 * ((roundHalfEven n d : Int) * d) ≤ 2 * n + d := by exact_mod_cast hup
  have hlow' : 2 * (n : Int) ≤ 2 * (roundHalfEven n d * d) + d := by exact_mod_cast hlow
  rcases abs_cases ((roundHalfEven n d : Int) * d - n) with h | h <;> omega

/-- Two different multiples of `d` are at least `d` apart. -/
theorem le_abs_mul_sub_mul {i j : Nat} (d : Nat) (h : i ≠ j) : (d : Int) ≤ |(i : Int) * d - j * d| := by
  have h1 : 1 ≤ |(i : Int) - j| := Int.one_le_abs (by omega)
  rw [← sub_mul, abs_mul, Nat.abs_cast]
  exact le_mul_of_one_le_left (Int.natCast_nonneg d) h1

/-- No integer is nearer to the quotient than the rounded one. -/
theorem roundHalfEven_nearest (n : Nat) {d : Nat} (hd : 0 < d) (j : Nat) :
    |(roundHalfEven n d : Int) * d - n| ≤ |(j : Int) * d - n| := by
  by_cases hj : roundHalfEven n d = j
  · rw [hj]
  · have hhalf := two_mul_abs_roundHalfEven_le n hd
    have hgap := le_abs_mul_sub_mul d hj
    have htri := abs_sub_le ((roundHalfEven n d : Int) * d) n (j * d)
    rw [abs_sub_comm (n : Int)] at htri
    omega

/-- If another integer is as near to the quotient, the rounded one is even. -/
theorem roundHalfEven_even_of_tie {n d j : Nat} (hd : 0 < d) (hj : j ≠ roundHalfEven n d)
    (htie : |(j : Int) * d - n| = |(roundHalfEven n d : Int) * d - n|) : roundHalfEven n d % 2 = 0 := by
  have hhalf := two_mul_abs_roundHalfEven_le n hd
  have hgap := le_abs_mul_sub_mul d hj.symm
  have htri := abs_sub_le ((roundHalfEven n d : Int) * d) n (j * d)
  rw [abs_sub_comm (n : Int), htie] at htri
  have herr : 2 * |(roundHalfEven n d : Int) * d - n| = d := by omega
  refine roundHalfEven_tie n d ?_
  have hdiv : (d : Int) * (n / d : Nat) + (n % d : Nat) = n := by exact_mod_cast Nat.div_add_mod n d
  have hmod := Nat.mod_lt n hd
  rcases roundHalfEven_cases n d with hr | hr
  · have hfloor : ((n / d : Nat) : Int) * d - n = -(n % d : Nat) := by linear_combination hdiv
    rw [hr, hfloor, abs_neg, Nat.abs_cast] at herr
    omega
  · have hceil : ((n / d + 1 : Nat) : Int) * d - n = d - (n % d : Nat) := by
      rw [Nat.cast_succ]; linear_combination hdiv
    rw [hr, hceil, abs_of_nonneg (by omega)] at herr
    omega

/-! ## The nearest count of units with a significand of 53 bits -/

/-- The significand of a rounded quotient: the bits that do not fit 53 are rounded off. It is `2^53` where they carry. -/
def roundedSignificand (n d : Nat) : Nat := roundHalfEven n (d * 2 ^ droppedBits (n / d))

/-- The units a rounded quotient stands for. -/
def roundedUnits (n d : Nat) : Nat := roundedSignificand n d * 2 ^ droppedBits (n / d)

/-- A count on the grid of the dropped power, in `d`-ths of a unit, is its significand times the coarser divisor. -/
theorem grid_mul {n d k j : Nat} (h : k = j * 2 ^ droppedBits (n / d)) :
    (k : Int) * d = j * (d * 2 ^ droppedBits (n / d) : Nat) := by
  rw [h]; push_cast; ring

theorem roundedUnits_mul (n d : Nat) :
    (roundedUnits n d : Int) * d = roundedSignificand n d * (d * 2 ^ droppedBits (n / d) : Nat) :=
  grid_mul rfl

/-- A count of units with a significand of 53 bits is a multiple of the dropped power, or lies below every quotient that
drops that many bits. -/
theorem significand_dvd_or_lt {m : Nat} (e e' : Nat) (hm : m < 2 ^ 53) :
    2 ^ e ∣ m * 2 ^ e' ∨ m * 2 ^ e' < 2 ^ (52 + e) := by
  rcases Nat.lt_or_ge e' e with h | h
  · refine .inr ?_
    calc m * 2 ^ e' < 2 ^ 53 * 2 ^ e' := Nat.mul_lt_mul_of_pos_right hm (by positivity)
      _ = 2 ^ (53 + e') := (pow_add 2 53 e').symm
      _ ≤ 2 ^ (52 + e) := Nat.pow_le_pow_right (by omega) (by omega)
  · exact .inl ((pow_dvd_pow 2 h).mul_left m)

/-- Where bits are dropped, a count of units below the least 53-bit significand is farther away than the rounded one. -/
theorem roundedUnits_lt_of_lt {n d k : Nat} (hd : 0 < d) (hk : k < 2 ^ (52 + droppedBits (n / d)))
    (he : droppedBits (n / d) ≠ 0) : |(roundedUnits n d : Int) * d - n| < |(k : Int) * d - n| := by
  have hquot : 2 ^ (52 + droppedBits (n / d)) * d ≤ n := (Nat.le_div_iff_mul_le hd).1 (pow_droppedBits_le he)
  have hk' : k * d < 2 ^ (52 + droppedBits (n / d)) * d := Nat.mul_lt_mul_of_pos_right hk hd
  have hgrid := roundHalfEven_nearest n (d := d * 2 ^ droppedBits (n / d)) (by positivity) (2 ^ 52)
  have hcast : ((2 ^ 52 : Nat) : Int) * (d * 2 ^ droppedBits (n / d) : Nat) =
      (2 ^ (52 + droppedBits (n / d)) * d : Nat) := by
    rw [pow_add]; push_cast; ring
  rw [hcast, ← roundedSignificand, ← roundedUnits_mul] at hgrid
  refine hgrid.trans_lt ?_
  have hkd : (k : Int) * d = (k * d : Nat) := (Nat.cast_mul k d).symm
  rw [hkd, abs_of_nonpos (by omega), abs_of_nonpos (by omega)]
  omega

/-- Each count of units with a significand of 53 bits is on the grid of the dropped power, or farther away than the rounded
one. -/
theorem grid_or_farther {n d m : Nat} (e' : Nat) (hd : 0 < d) (hm : m < 2 ^ 53) :
    (∃ j, m * 2 ^ e' = j * 2 ^ droppedBits (n / d)) ∨
      |(roundedUnits n d : Int) * d - n| < |((m * 2 ^ e' : Nat) : Int) * d - n| := by
  by_cases h : 2 ^ droppedBits (n / d) ∣ m * 2 ^ e'
  · obtain ⟨j, hj⟩ := h
    exact .inl ⟨j, by rw [hj, mul_comm]⟩
  · have hlt := (significand_dvd_or_lt (droppedBits (n / d)) e' hm).resolve_left h
    refine .inr (roundedUnits_lt_of_lt hd hlt ?_)
    intro h0
    exact h (by rw [h0, pow_zero]; exact one_dvd _)

/-- No count of units with a significand of 53 bits is nearer to the quotient than the rounded one. -/
theorem roundedUnits_nearest (n : Nat) {d m : Nat} (e' : Nat) (hd : 0 < d) (hm : m < 2 ^ 53) :
    |(roundedUnits n d : Int) * d - n| ≤ |((m * 2 ^ e' : Nat) : Int) * d - n| := by
  rcases grid_or_farther (n := n) e' hd hm with ⟨j, hj⟩ | hfar
  · rw [grid_mul hj, roundedUnits_mul]
    exact roundHalfEven_nearest n (by positivity) j
  · exact hfar.le

/-- If another such count is as near, the significand of the rounded one is even. -/
theorem roundedSignificand_even_of_tie {n d m e' : Nat} (hd : 0 < d) (hm : m < 2 ^ 53)
    (hne : m * 2 ^ e' ≠ roundedUnits n d)
    (htie : |((m * 2 ^ e' : Nat) : Int) * d - n| = |(roundedUnits n d : Int) * d - n|) :
    roundedSignificand n d % 2 = 0 := by
  rcases grid_or_farther (n := n) e' hd hm with ⟨j, hj⟩ | hfar
  · rw [grid_mul hj, roundedUnits_mul] at htie
    refine roundHalfEven_even_of_tie (by positivity) ?_ htie
    rintro rfl
    exact hne hj
  · exact absurd htie hfar.ne'

/-! ## The pattern of the rounded quotient -/

theorem roundedSignificand_le {n d : Nat} (hd : 0 < d) : roundedSignificand n d ≤ 2 ^ 53 := by
  have hlt : n < 2 ^ (53 + droppedBits (n / d)) * d := (Nat.div_lt_iff_lt_mul hd).1 (lt_pow_droppedBits _)
  calc roundHalfEven n (d * 2 ^ droppedBits (n / d)) ≤ roundHalfEven (2 ^ 53 * 1) 1 := by
        refine roundHalfEven_mono (by positivity) one_pos ?_
        calc n * 1 ≤ 2 ^ (53 + droppedBits (n / d)) * d := by omega
          _ = 2 ^ 53 * 1 * (d * 2 ^ droppedBits (n / d)) := by rw [pow_add]; ring
    _ = 2 ^ 53 := roundHalfEven_exact _ 1 one_pos

/-- Where bits are dropped, the significand has its top bit. -/
theorem le_roundedSignificand {n d : Nat} (hd : 0 < d) (he : droppedBits (n / d) ≠ 0) :
    2 ^ 52 ≤ roundedSignificand n d := by
  have hle : 2 ^ (52 + droppedBits (n / d)) * d ≤ n := (Nat.le_div_iff_mul_le hd).1 (pow_droppedBits_le he)
  calc 2 ^ 52 = roundHalfEven (2 ^ 52 * 1) 1 := (roundHalfEven_exact _ 1 one_pos).symm
    _ ≤ roundHalfEven n (d * 2 ^ droppedBits (n / d)) := by
        refine roundHalfEven_mono one_pos (by positivity) ?_
        calc 2 ^ 52 * 1 * (d * 2 ^ droppedBits (n / d)) = 2 ^ (52 + droppedBits (n / d)) * d := by rw [pow_add]; ring
          _ ≤ n * 1 := by omega

/-- The units in the largest finite value. -/
def largestUnits : Nat := (2 ^ 53 - 1) * 2 ^ 2045

theorem largestFinite_mul_units : largestFinite * 2 ^ 1074 = largestUnits := by
  rw [largestFinite, largestUnits, mul_assoc, ← pow_add, Nat.cast_mul, Nat.cast_pow]
  norm_num

/-- A quotient within the finite range rounds to fields below those of infinity. -/
theorem fields_lt_infinity {n d : Nat} (hd : 0 < d) (hle : n ≤ largestUnits * d) :
    droppedBits (n / d) * 2 ^ 52 + roundedSignificand n d < infinityFields := by
  have hS := roundedSignificand_le (n := n) hd
  have hinf : infinityFields = 2047 * 2 ^ 52 := rfl
  rcases Nat.lt_trichotomy (droppedBits (n / d)) 2045 with he | he | he
  · omega
  · have hlast : roundedSignificand n d ≤ 2 ^ 53 - 1 := by
      calc roundHalfEven n (d * 2 ^ droppedBits (n / d)) ≤ roundHalfEven ((2 ^ 53 - 1) * 1) 1 := by
            refine roundHalfEven_mono (by positivity) one_pos ?_
            rwa [he, mul_one, mul_one, mul_comm d, ← mul_assoc]
        _ = 2 ^ 53 - 1 := roundHalfEven_exact _ 1 one_pos
    omega
  · have hquot : n / d ≤ largestUnits := Nat.div_le_of_le_mul (by rwa [mul_comm d])
    have hdrop : 2 ^ (52 + droppedBits (n / d)) ≤ n / d := pow_droppedBits_le (by omega)
    have hpow : 2 ^ 53 * 2 ^ 2045 ≤ 2 ^ (52 + droppedBits (n / d)) := by
      rw [← pow_add]; exact pow_le_pow_right₀ one_le_two (by omega)
    have hstrict : largestUnits < 2 ^ 53 * 2 ^ 2045 := Nat.mul_lt_mul_of_pos_right (by omega) (by positivity)
    exact absurd (hpow.trans (hdrop.trans hquot)) hstrict.not_ge

theorem roundFields_eq {n d : Nat} (h : droppedBits (n / d) * 2 ^ 52 + roundedSignificand n d < infinityFields) :
    roundFields n d = droppedBits (n / d) * 2 ^ 52 + roundedSignificand n d :=
  Nat.min_eq_left h.le

/-- The fields of a rounded quotient stand for its units; a carry to `2^53` is the next power of two. -/
theorem magnitudeOf_rounded {n d : Nat} (hd : 0 < d) :
    magnitudeOf ((droppedBits (n / d) * 2 ^ 52 + roundedSignificand n d) / 2 ^ 52)
      ((droppedBits (n / d) * 2 ^ 52 + roundedSignificand n d) % 2 ^ 52) = roundedUnits n d := by
  rcases (roundedSignificand_le (n := n) hd).lt_or_eq with hlt | hcarry
  · exact magnitudeOf_fields hlt ((Nat.eq_zero_or_pos _).imp_right fun h => le_roundedSignificand hd h.ne')
  · have hnext : droppedBits (n / d) * 2 ^ 52 + 2 ^ 53 = (droppedBits (n / d) + 1) * 2 ^ 52 + 2 ^ 52 := by ring
    rw [roundedUnits, hcarry, hnext, magnitudeOf_fields (by decide) (.inr le_rfl)]
    ring

theorem viewOf_pack_roundFields (neg : Bool) {n d : Nat} (hd : 0 < d) (hle : n ≤ largestUnits * d) :
    viewOf (pack neg (roundFields n d)) = .finite neg (roundedUnits n d) := by
  have hfin := fields_lt_infinity hd hle
  rw [roundFields_eq hfin, viewOf_pack neg hfin, magnitudeOf_rounded hd]

/-- The fraction field of a rounded quotient has the parity of its significand. -/
theorem fractionField_pack_roundFields (neg : Bool) {n d : Nat} (hd : 0 < d)
    (hle : n ≤ largestUnits * d) :
    fractionField (pack neg (roundFields n d)) % 2 = roundedSignificand n d % 2 := by
  have hfin := fields_lt_infinity hd hle
  have hinf : infinityFields = 2047 * 2 ^ 52 := rfl
  rw [roundFields_eq hfin, fractionField, pack_toNat neg (by omega)]
  split <;> omega

/-! ## The nearest value -/

/-- The distance of two signed counts: the signs agree, or the magnitudes add up. -/
theorem abs_signedUnits_sub (neg neg' : Bool) (k d n : Nat) :
    |signedUnits neg' k * d - signedUnits neg n| =
      if neg' = neg then |(k : Int) * d - n| else (k : Int) * d + n := by
  have hk : (0 : Int) ≤ k * d := by positivity
  have hneg : |-((k : Int) * d) - n| = k * d + n := by rw [abs_of_nonpos (by omega)]; ring
  cases neg <;> cases neg' <;>
    simp only [signedUnits, Bool.false_eq_true, Bool.true_eq_false, if_true, if_false, neg_mul]
  · exact hneg
  · rw [sub_neg_eq_add, abs_of_nonneg (by omega)]
  · rw [← abs_neg]; congr 1; ring

/-- The exact quotient of `n` by `d`, signed, in units of `2^-1074`, as a rational. -/
def exactValue (neg : Bool) (n d : Nat) : ℚ := (signedUnits neg n : ℚ) / d / 2 ^ 1074

theorem abs_f64Value_sub {v : F64} {neg' : Bool} {k : Nat} (hv : viewOf v = .finite neg' k) (neg : Bool) (n : Nat)
    {d : Nat} (hd : 0 < d) :
    |f64Value v - exactValue neg n d| = (|signedUnits neg' k * d - signedUnits neg n| : Int) / (d * 2 ^ 1074 : ℚ) := by
  have hd' : (0 : ℚ) < d := by exact_mod_cast hd
  have hp : (0 : ℚ) < 2 ^ 1074 := by positivity
  rw [f64Value_of_viewOf hv, exactValue]
  generalize (2 : ℚ) ^ 1074 = p at hp ⊢
  have hdiff : (signedUnits neg' k : ℚ) / p - signedUnits neg n / d / p =
      ((signedUnits neg' k * d - signedUnits neg n : Int) : ℚ) / (d * p) := by
    push_cast; field_simp
  rw [hdiff, abs_div, abs_of_pos (mul_pos hd' hp), Int.cast_abs]

/-- An exact quotient within the finite range, as a bound on its numerator. -/
theorem le_of_abs_exactValue_le {neg : Bool} {n d : Nat} (hd : 0 < d) (h : |exactValue neg n d| ≤ largestFinite) :
    n ≤ largestUnits * d := by
  have hd' : (0 : ℚ) < d := by exact_mod_cast hd
  have hp : (0 : ℚ) < 2 ^ 1074 := by positivity
  rw [exactValue, abs_div, abs_div, abs_of_pos hp, abs_of_pos hd', ← Int.cast_abs, abs_signedUnits, Int.cast_natCast,
    div_le_iff₀ hp, largestFinite_mul_units, div_le_iff₀ hd'] at h
  exact_mod_cast h

/-- A count of opposite sign is no nearer than its magnitude is. -/
theorem abs_sub_le_abs_signedUnits_sub (neg neg' : Bool) (k d n : Nat) :
    |(k : Int) * d - n| ≤ |signedUnits neg' k * d - signedUnits neg n| := by
  have hk : (0 : Int) ≤ k * d := by positivity
  rw [abs_signedUnits_sub]
  split
  · exact le_rfl
  · exact abs_le.2 (by omega)

theorem roundedUnits_zero {d : Nat} (hd : 0 < d) : roundedUnits 0 d = 0 := by
  have h := roundHalfEven_exact 0 (d * 2 ^ droppedBits (0 / d)) (by positivity)
  rw [zero_mul] at h
  rw [roundedUnits, roundedSignificand, h, zero_mul]

/-- A signed count as near as the rounded one, and of the same magnitude, is the same number. -/
theorem signedUnits_eq_of_tie {neg neg' : Bool} {d n : Nat} (hd : 0 < d)
    (htie : |signedUnits neg' (roundedUnits n d) * d - signedUnits neg n| = |(roundedUnits n d : Int) * d - n|) :
    signedUnits neg' (roundedUnits n d) = signedUnits neg (roundedUnits n d) := by
  by_cases hs : neg' = neg
  · rw [hs]
  · rw [abs_signedUnits_sub, if_neg hs] at htie
    have hzero : roundedUnits n d = 0 := by
      rcases Nat.eq_zero_or_pos n with rfl | hn
      · exact roundedUnits_zero hd
      · have hRd : (roundedUnits n d : Int) * d = 0 := by
          have hpos : (0 : Int) ≤ roundedUnits n d * d := by positivity
          rcases abs_cases ((roundedUnits n d : Int) * d - n) with h | h <;> omega
        have hd' : (d : Int) ≠ 0 := by omega
        exact_mod_cast (mul_eq_zero.1 hRd).resolve_right hd'
    rw [hzero]
    cases neg <;> cases neg' <;> rfl

theorem viewOf_eq_significand {v : F64} (h : IsFinite v) :
    ∃ neg m e, viewOf v = .finite neg (m * 2 ^ e) ∧ m < 2 ^ 53 := by
  obtain ⟨m, e, hmag, hm, -⟩ := magnitudeOf_eq_significand h
  exact ⟨_, m, e, by rw [viewOf_of_isFinite h, hmag], hm⟩

/-- Rounding a quotient within the finite range gives the nearest value, ties to even. -/
theorem nearestEven_pack_roundFields (neg : Bool) {n d : Nat} (hd : 0 < d)
    (hle : |exactValue neg n d| ≤ largestFinite) :
    NearestEven (exactValue neg n d) (pack neg (roundFields n d)) := by
  have hn := le_of_abs_exactValue_le hd hle
  have hr := viewOf_pack_roundFields neg hd hn
  have hscale : (0 : ℚ) < d * 2 ^ 1074 := by positivity
  have herr := abs_f64Value_sub hr neg n hd
  rw [abs_signedUnits_sub, if_pos rfl] at herr
  refine ⟨isFinite_of_viewOf hr, fun r' hr' => ?_, fun r' hr' hne htie => ?_⟩
  · obtain ⟨neg', m, e, hview, hm⟩ := viewOf_eq_significand hr'
    rw [herr, abs_f64Value_sub hview neg n hd, div_le_div_iff_of_pos_right hscale, Int.cast_le]
    exact (roundedUnits_nearest n e hd hm).trans (abs_sub_le_abs_signedUnits_sub neg neg' _ d n)
  · obtain ⟨neg', m, e, hview, hm⟩ := viewOf_eq_significand hr'
    rw [herr, abs_f64Value_sub hview neg n hd, div_left_inj' hscale.ne', Int.cast_inj] at htie
    have hmag := (abs_sub_le_abs_signedUnits_sub neg neg' (m * 2 ^ e) d n).trans_eq htie
    rw [fractionField_pack_roundFields neg hd hn]
    refine roundedSignificand_even_of_tie hd hm ?_ (le_antisymm hmag (roundedUnits_nearest n e hd hm))
    intro hk
    rw [hk] at htie hview
    exact hne (by rw [f64Value_of_viewOf hview, f64Value_of_viewOf hr, signedUnits_eq_of_tie hd htie])

/-! ## The four operations -/

theorem signedUnits_mul (na nb : Bool) (ma mb : Nat) :
    signedUnits (na != nb) (ma * mb) = signedUnits na ma * signedUnits nb mb := by
  cases na <;> cases nb <;> simp [signedUnits]

theorem signedUnits_mul_natCast (neg : Bool) (mag c : Nat) : signedUnits neg (mag * c) = signedUnits neg mag * c := by
  cases neg <;> simp [signedUnits]

theorem signedUnits_natAbs (z : Int) : signedUnits (decide (z < 0)) z.natAbs = z := by
  rcases lt_or_ge z 0 with h | h
  · simp [signedUnits, h, abs_of_neg h]
  · simp [signedUnits, h.not_gt, abs_of_nonneg h]

/-- A sum of signed units, packed once, is the nearest value. -/
theorem nearestEven_sumOr {nan a b : F64} {na nb : Bool} {ma mb : Nat} (ha : viewOf a = .finite na ma)
    (hb : viewOf b = .finite nb mb) (hle : |f64Value a + f64Value b| ≤ largestFinite) :
    NearestEven (f64Value a + f64Value b) (sumOr nan a b) := by
  have hexact : ∀ neg n, signedUnits neg n = signedUnits na ma + signedUnits nb mb →
      f64Value a + f64Value b = exactValue neg n 1 := by
    intro neg n h
    rw [f64Value_of_viewOf ha, f64Value_of_viewOf hb, exactValue, h, Nat.cast_one, div_one, Int.cast_add, add_div]
  rw [sumOr_finite ha hb]
  split
  next hzero =>
    have h0 : signedUnits (na && nb) 0 = signedUnits na ma + signedUnits nb mb := by
      rw [hzero]; cases (na && nb) <;> rfl
    rw [hexact _ _ h0] at hle ⊢
    exact nearestEven_pack_roundFields _ one_pos hle
  next =>
    rw [hexact _ _ (signedUnits_natAbs _)] at hle ⊢
    exact nearestEven_pack_roundFields _ one_pos hle

theorem f64Value_fneg {v : F64} {neg : Bool} {mag : Nat} (h : viewOf v = .finite neg mag) :
    f64Value (fneg v) = -f64Value v := by
  rw [f64Value_of_viewOf (viewOf_fneg h), f64Value_of_viewOf h]
  cases neg <;> simp [signedUnits, neg_div]

theorem nearestEven_fadd {a b : F64} (ha : IsFinite a) (hb : IsFinite b)
    (hle : |f64Value a + f64Value b| ≤ largestFinite) : NearestEven (f64Value a + f64Value b) (fadd a b) :=
  nearestEven_sumOr (viewOf_of_isFinite ha) (viewOf_of_isFinite hb) hle

theorem nearestEven_fsub {a b : F64} (ha : IsFinite a) (hb : IsFinite b)
    (hle : |f64Value a - f64Value b| ≤ largestFinite) : NearestEven (f64Value a - f64Value b) (fsub a b) := by
  have hview := viewOf_of_isFinite hb
  rw [sub_eq_add_neg, ← f64Value_fneg hview] at hle ⊢
  exact nearestEven_sumOr (viewOf_of_isFinite ha) (viewOf_fneg hview) hle

theorem fmul_finite {a b : F64} {na nb : Bool} {ma mb : Nat} (ha : viewOf a = .finite na ma)
    (hb : viewOf b = .finite nb mb) : fmul a b = pack (na != nb) (roundFields (ma * mb) unitsPerOne) := by
  simp only [fmul, ha, hb]

theorem fdiv_finite {a b : F64} {na nb : Bool} {ma mb : Nat} (ha : viewOf a = .finite na ma)
    (hb : viewOf b = .finite nb mb) (hmb : mb ≠ 0) :
    fdiv a b = pack (na != nb) (roundFields (ma * unitsPerOne) mb) := by
  simp only [fdiv, ha, hb, if_neg hmb]

theorem unitsPerOne_pos : 0 < unitsPerOne := by unfold unitsPerOne; positivity

theorem unitsPerOne_cast : (unitsPerOne : ℚ) = 2 ^ 1074 := by rw [unitsPerOne, Nat.cast_pow, Nat.cast_ofNat]

theorem nearestEven_fmul {a b : F64} (ha : IsFinite a) (hb : IsFinite b)
    (hle : |f64Value a * f64Value b| ≤ largestFinite) : NearestEven (f64Value a * f64Value b) (fmul a b) := by
  have hva := viewOf_of_isFinite ha
  have hvb := viewOf_of_isFinite hb
  rw [fmul_finite hva hvb]
  have hexact : ∀ na nb ma mb, (signedUnits na ma : ℚ) / 2 ^ 1074 * (signedUnits nb mb / 2 ^ 1074) =
      exactValue (na != nb) (ma * mb) unitsPerOne := by
    intro na nb ma mb
    rw [exactValue, signedUnits_mul, unitsPerOne_cast, Int.cast_mul, div_mul_div_comm, div_div]
  rw [f64Value_of_viewOf hva, f64Value_of_viewOf hvb, hexact] at hle ⊢
  exact nearestEven_pack_roundFields _ unitsPerOne_pos hle

theorem f64Value_ne_zero_iff {v : F64} {neg : Bool} {mag : Nat} (h : viewOf v = .finite neg mag) :
    f64Value v ≠ 0 ↔ mag ≠ 0 := by
  have hp : (2 : ℚ) ^ 1074 ≠ 0 := by positivity
  rw [f64Value_of_viewOf h, div_ne_zero_iff, Int.cast_ne_zero]
  cases neg <;> simp [signedUnits, hp]

/-- The exact quotient of two finite values, signed, as the quotient `fdiv` rounds. -/
theorem div_eq_exactValue (na nb : Bool) (ma : Nat) {mb : Nat} (hmb : mb ≠ 0) :
    (signedUnits na ma : ℚ) / 2 ^ 1074 / (signedUnits nb mb / 2 ^ 1074) =
      exactValue (na != nb) (ma * unitsPerOne) mb := by
  have hp : (2 : ℚ) ^ 1074 ≠ 0 := by positivity
  have hmb' : (mb : ℚ) ≠ 0 := by exact_mod_cast hmb
  rw [exactValue, signedUnits_mul_natCast, Int.cast_mul, Int.cast_natCast, unitsPerOne_cast]
  generalize (2 : ℚ) ^ 1074 = p at hp ⊢
  cases na <;> cases nb <;> simp [signedUnits] <;> field_simp

theorem nearestEven_fdiv {a b : F64} (ha : IsFinite a) (hb : IsFinite b) (hb0 : f64Value b ≠ 0)
    (hle : |f64Value a / f64Value b| ≤ largestFinite) : NearestEven (f64Value a / f64Value b) (fdiv a b) := by
  have hva := viewOf_of_isFinite ha
  have hvb := viewOf_of_isFinite hb
  have hmb := (f64Value_ne_zero_iff hvb).1 hb0
  rw [fdiv_finite hva hvb hmb]
  rw [f64Value_of_viewOf hva, f64Value_of_viewOf hvb, div_eq_exactValue _ _ _ hmb] at hle ⊢
  exact nearestEven_pack_roundFields _ (Nat.pos_of_ne_zero hmb) hle

end Sys2Proof.Machine

open Sys2Proof.Machine in
/-- Settles O28: each operation packs an exact quotient of units, and `roundFields` rounds it to the nearest. -/
theorem arithmeticRoundsToNearestEven : Obligations.ArithmeticRoundsToNearestEven :=
  fun _ _ ha hb => ⟨nearestEven_fadd ha hb, nearestEven_fsub ha hb, nearestEven_fmul ha hb, nearestEven_fdiv ha hb⟩
end

section
/-! The conversions of R12 and the ratio of R115, which round nothing. -/

namespace Sys2Proof.Machine

/-- A quotient that is exactly `m` units times a power of two, with a significand of 53 bits, is packed unrounded. -/
theorem viewOf_pack_exact (neg : Bool) {n d m e : Nat} (hd : 0 < d) (hm : m < 2 ^ 53) (he : e ≤ 2044)
    (hn : n = m * 2 ^ e * d) : viewOf (pack neg (roundFields n d)) = .finite neg (m * 2 ^ e) := by
  obtain ⟨m', e', heq, hm', htop, hle⟩ := significand_exists (e := e) hm
  have hinf : infinityFields = 2047 * 2 ^ 52 := rfl
  rw [hn, heq]
  exact viewOf_pack_roundFields_exact neg hd hm' htop (by omega)

theorem viewOf_natToF64 {n : Nat} (h : n < 2 ^ 53) : viewOf (natToF64 n) = .finite false (n * 2 ^ 1074) :=
  viewOf_pack_exact false one_pos h (by omega) (mul_one _).symm

theorem viewOf_pow2 {k : Nat} (h : k ≤ 32) : viewOf (pow2 k) = .finite false (2 ^ k * 2 ^ 1074) := by
  have hinf : infinityFields = 2047 * 2 ^ 52 := rfl
  have hfields : (1023 + k) * 2 ^ 52 = (1022 + k) * 2 ^ 52 + 2 ^ 52 := by ring
  have hunits : 2 ^ 52 * 2 ^ (1022 + k) = 2 ^ k * 2 ^ 1074 := by rw [← pow_add, ← pow_add]; congr 1; omega
  rw [pow2, viewOf_pack false (by omega), hfields, magnitudeOf_fields (by decide) (.inr le_rfl), hunits]

/-- The ratio of R115: `n / 2^k` is `n * 2^(1074 - k)` units. -/
theorem viewOf_ratio {n k : Nat} (hn : n < 2 ^ 53) (hk : k ≤ 32) :
    viewOf (fdiv (natToF64 n) (pow2 k)) = .finite false (n * 2 ^ (1074 - k)) := by
  have hsplit : 2 ^ 1074 = 2 ^ (1074 - k) * 2 ^ k := by rw [← pow_add]; congr 1; omega
  rw [fdiv_finite (viewOf_natToF64 hn) (viewOf_pow2 hk) (by positivity)]
  refine viewOf_pack_exact _ (by positivity) hn (by omega) ?_
  rw [unitsPerOne]
  generalize 2 ^ 1074 = u at hsplit ⊢
  rw [hsplit]; ring

theorem f64Value_of_viewOf_nonneg {v : F64} {mag : Nat} (h : viewOf v = .finite false mag) :
    f64Value v = (mag : ℚ) / 2 ^ 1074 := by
  rw [f64Value_of_viewOf h]; rfl

theorem f64Value_natToF64 {n : Nat} (h : n < 2 ^ 53) : f64Value (natToF64 n) = n := by
  rw [f64Value_of_viewOf_nonneg (viewOf_natToF64 h), Nat.cast_mul, Nat.cast_pow, Nat.cast_ofNat]
  exact mul_div_cancel_right₀ _ (by positivity)

theorem f64Value_pow2 {k : Nat} (h : k ≤ 32) : f64Value (pow2 k) = 2 ^ k := by
  rw [f64Value_of_viewOf_nonneg (viewOf_pow2 h), Nat.cast_mul, Nat.cast_pow, Nat.cast_pow, Nat.cast_ofNat]
  exact mul_div_cancel_right₀ _ (by positivity)

theorem f64Value_ratio {n k : Nat} (hn : n < 2 ^ 53) (hk : k ≤ 32) :
    f64Value (fdiv (natToF64 n) (pow2 k)) = (n : ℚ) / 2 ^ k := by
  have hpow : (2 : ℚ) ^ 1074 = 2 ^ (1074 - k) * 2 ^ k := by rw [← pow_add]; congr 1; omega
  rw [f64Value_of_viewOf_nonneg (viewOf_ratio hn hk), Nat.cast_mul, Nat.cast_pow, Nat.cast_ofNat, hpow,
    mul_comm (n : ℚ)]
  exact mul_div_mul_left _ _ (by positivity)

end Sys2Proof.Machine

open Sys2Proof.Machine in
/-- Settles O29: each result is a count of units whose significand fits 53 bits, so nothing is rounded off. -/
theorem conversionsAreExact : Obligations.ConversionsAreExact := by
  refine ⟨fun n hn => ?_, fun k hk => ?_, fun n k hn hk => ?_⟩
  · exact ⟨isFinite_of_viewOf (viewOf_natToF64 hn), f64Value_natToF64 hn⟩
  · exact ⟨isFinite_of_viewOf (viewOf_pow2 hk), f64Value_pow2 hk⟩
  · have hn' : n < 2 ^ 53 := by omega
    exact ⟨isFinite_of_viewOf (viewOf_ratio hn' hk), f64Value_ratio hn' hk⟩
end

section
/-! No response of the hardwired engine reports `InvalidDomain` (R72), and every response is lawful (R29): the invariant
of every move. -/

namespace Sys2Proof.Machine

/-- A response that `SafeState` allows to be pending. -/
def SafeResponse (r : Response) : Prop := LawfulResponse r ∧ r.status ≠ 2

/-! ## Responses -/

theorem newCodeStepFailure_ne_invalidDomain (step : Step) : newCodeStepFailure step ≠ some .invalidDomain := by
  unfold newCodeStepFailure; split <;> simp

theorem givenCodeStepFailure_ne_invalidDomain (step : Step) : givenCodeStepFailure step ≠ some .invalidDomain := by
  unfold givenCodeStepFailure; split
  · simp
  · split <;> simp

theorem coordFailure_ne_invalidDomain (k : ConstRegs) (lon lat : F64) :
    coordFailure k lon lat ≠ some .invalidDomain := by
  unfold coordFailure; split <;> simp

theorem raiseFailure_safe {e : Failure} (h : e ≠ .invalidDomain) : SafeResponse (raiseFailure e) :=
  ⟨raiseFailure_lawful e, fun h2 => h (failureCode_injective h2)⟩

theorem safeResponse_of_status_zero {r : Response} (h : r.status = 0) : SafeResponse r :=
  ⟨lawful_of_status_zero h, by simp [h]⟩

/-- A guarded computation whose success writes status 0 and whose tests cannot report `InvalidDomain` is safe. -/
theorem respondWith_guarded_safe {α : Type} {tests : List (Option Failure)} {v : α} {write : α → Response}
    (hw : (write v).status = 0) (ht : some .invalidDomain ∉ tests) :
    SafeResponse (respondWith (guarded tests v) write) := by
  cases hf : firstFailure tests with
  | none =>
    rw [guarded_ok v hf]
    exact safeResponse_of_status_zero hw
  | some e =>
    rw [guarded_error v hf]
    have he : e ≠ .invalidDomain := by
      rintro rfl
      exact ht (firstFailure_mem hf)
    exact raiseFailure_safe he

/-- The tests of QUANT and ENCODE, with the hardwired domain. -/
theorem invalidDomain_notMem_newCodeTests (step : Step) (lon lat : F64) :
    some Failure.invalidDomain ∉ [newCodeStepFailure step, domainFailure hardwiredK, coordFailure hardwiredK lon lat] := by
  simp [domainFailure_hardwired, (newCodeStepFailure_ne_invalidDomain step).symm,
    (coordFailure_ne_invalidDomain hardwiredK lon lat).symm]

/-- The tests of DECODE and DECODEC, with the hardwired domain. -/
theorem invalidDomain_notMem_cellTests (step : Step) :
    some Failure.invalidDomain ∉ [givenCodeStepFailure step, domainFailure hardwiredK] := by
  simp [domainFailure_hardwired, (givenCodeStepFailure_ne_invalidDomain step).symm]

/-- The test of MOVE and NEIGHBORS. -/
theorem invalidDomain_notMem_moveTests (step : Step) : some Failure.invalidDomain ∉ [givenCodeStepFailure step] := by
  simp [(givenCodeStepFailure_ne_invalidDomain step).symm]

theorem commandResponse_safe (i : Instr) (q : Request) : SafeResponse (commandResponse i hardwiredK q) := by
  cases i with
  | range => exact safeResponse_of_status_zero rfl
  | interleave => exact safeResponse_of_status_zero rfl
  | deinterleave => exact safeResponse_of_status_zero rfl
  | quant => exact respondWith_guarded_safe rfl (invalidDomain_notMem_newCodeTests q.s q.a q.b)
  | encode => exact respondWith_guarded_safe rfl (invalidDomain_notMem_newCodeTests q.s q.a q.b)
  | decode => exact respondWith_guarded_safe rfl (invalidDomain_notMem_cellTests q.s)
  | decodec => exact respondWith_guarded_safe rfl (invalidDomain_notMem_cellTests q.s)
  | move dirx diry => exact respondWith_guarded_safe rfl (invalidDomain_notMem_moveTests q.s)
  | neighbors => exact respondWith_guarded_safe rfl (invalidDomain_notMem_moveTests q.s)

theorem respond_safe (q : Request) : SafeResponse (respond hardwiredK q) := by
  unfold respond
  split
  · exact commandResponse_safe _ q
  · exact raiseFailure_safe (by decide)

/-! ## States -/

variable {s t : State}

theorem safeState_reset : SafeState State.reset := ⟨rfl, by simp⟩

/-- A state with the same constants and no new response stays safe. -/
theorem SafeState.of_subset (hs : SafeState s) (hk : t.k = s.k) (hr : t.responses ⊆ s.responses) : SafeState t := by
  obtain ⟨hsk, hsr⟩ := hs
  exact ⟨hk.trans hsk, fun a ha => hsr a (hr ha)⟩

theorem SafeState.deliver (hs : SafeState s) (p : InService) {rsp : Response} (hr : SafeResponse rsp) :
    SafeState (s.deliver p rsp) := by
  obtain ⟨hk, hold⟩ := hs
  refine ⟨hk, fun a ha => ?_⟩
  rw [State.deliver_responses, List.mem_append, List.mem_singleton] at ha
  obtain ha | rfl := ha
  · exact hold a ha
  · exact hr

/-- The engine's step delivers a response to the hardwired constants or leaves the responses alone. -/
theorem SafeState.afterStep (hs : SafeState s) : SafeState s.afterStep := by
  obtain ⟨_, h⟩ | ⟨p, n, _, _, h⟩ | ⟨p, _, h⟩ := afterStep_cases s
  · exact hs.of_subset (by simp [h]) (by simp [h])
  · exact hs.of_subset (by simp [h]) (by simp [h])
  · have hk : s.k = hardwiredK := hs.1
    rw [h, hk]
    exact hs.deliver p (respond_safe p.req)

theorem SafeState.afterMove (m : Move) (hs : SafeState s) : SafeState (s.afterMove m) := by
  cases m with
  | engine => exact hs.afterStep
  | issue requester q => exact hs.of_subset rfl (List.Subset.refl _)
  | collect requester => exact hs.of_subset rfl List.eraseP_subset
  | assertReset => exact safeState_reset

end Sys2Proof.Machine

open Sys2Proof.Machine in
/-- Settles O10: the constants are the hardwired ones and nothing is pending. -/
theorem resetIsSafe : Obligations.ResetIsSafe := safeState_reset

open Sys2Proof.Machine in
/-- Settles O11: the only response a step can add is `respond hardwiredK` of a request. -/
theorem stepKeepsSafety : Obligations.StepKeepsSafety :=
  fun _ _ hs h => afterStep_of_next h ▸ hs.afterStep

open Sys2Proof.Machine in
/-- Settles O12, by induction on the moves. -/
theorem movesKeepSafety : Obligations.MovesKeepSafety :=
  fun moves s hs => runMoves_keeps (fun m _ => SafeState.afterMove m) moves s hs
end

section
/-! The operand bits a command reads (R31). -/

namespace Sys2Proof.Machine

/-- The low 32 bits of a slot, as a lane, are its number modulo `2^32`. -/
theorem extractLsb'_eq_of_toNat_mod_eq {v v' : Slot} (h : v.toNat % 2 ^ 32 = v'.toNat % 2 ^ 32) :
    v.extractLsb' 0 32 = v'.extractLsb' 0 32 :=
  BitVec.eq_of_toNat_eq (by simpa using h)

theorem operandX_eq {q q' : Request} (h : q.a.toNat % 2 ^ 32 = q'.a.toNat % 2 ^ 32) : operandX q = operandX q' :=
  extractLsb'_eq_of_toNat_mod_eq h

theorem operandY_eq {q q' : Request} (h : q.b.toNat % 2 ^ 32 = q'.b.toNat % 2 ^ 32) : operandY q = operandY q' :=
  extractLsb'_eq_of_toNat_mod_eq h

theorem operandCode_eq {q q' : Request} (h : q.a = q'.a ∧ q.s = q'.s) : operandCode q = operandCode q' := by
  obtain ⟨ha, hs⟩ := h
  simp only [operandCode, operandStep, ha, hs]

end Sys2Proof.Machine

open Sys2Proof.Machine in
/-- Settles O20: each response is a function of the operands R31 names for its command. -/
theorem unusedOperandBitsAreIgnored : Obligations.UnusedOperandBitsAreIgnored := by
  intro i k q q' h
  cases i with
  | range => rfl
  | interleave =>
    obtain ⟨ha, hb⟩ := h
    simp only [commandResponse, interleaveResponse, operandX_eq ha, operandY_eq hb]
  | deinterleave =>
    have hv : operandValue q = operandValue q' := h
    simp only [commandResponse, deinterleaveResponse, hv]
  | quant =>
    obtain ⟨ha, hb, hs⟩ := h
    simp only [commandResponse, quantResponse, operandLon, operandLat, operandStep, ha, hb, hs]
  | encode =>
    obtain ⟨ha, hb, hs⟩ := h
    simp only [commandResponse, encodeResponse, operandLon, operandLat, operandStep, ha, hb, hs]
  | decode => simp only [commandResponse, decodeResponse, operandCode_eq h]
  | decodec => simp only [commandResponse, decodecResponse, operandCode_eq h]
  | move dirx diry => simp only [commandResponse, moveResponse, operandCode_eq h]
  | neighbors => simp only [commandResponse, neighborsResponse, operandCode_eq h]
end

section
/-! The engine between commands, and the frame of every command. -/

namespace Sys2Proof.Machine

theorem step_of_idle {s : State} (hs : s.inService = none) (hi : s.issued = []) : step s = .next s := by
  rw [step_of_no_request hs, acceptNext_of_idle s hi]

theorem step_of_issued {s : State} {w : Issued} {rest : List Issued} (hs : s.inService = none)
    (hi : s.issued = w :: rest) :
    step s = .next { s with
      issued := rest
      inService := some { requester := w.requester, req := w.req, wait := latencyOf w.req } } := by
  rw [step_of_no_request hs, acceptNext_of_issued s w rest hi]

/-- A command answers the request in progress with its response and changes nothing else. -/
theorem exec_answeredWith (i : Instr) {s : State} {p : InService} (h : s.inService = some p) :
    ∃ t, exec i s = .next t ∧ AnsweredWith s p (commandResponse i s.k p.req) t :=
  ⟨_, exec_of_inService i h, deliver_answeredWith s p _⟩

end Sys2Proof.Machine

open Sys2Proof.Machine in
/-- Settles O7: accepting takes the head of the queue, and waiting counts down. -/
theorem engineIdlesAcceptsAndWaits : Obligations.EngineIdlesAcceptsAndWaits :=
  ⟨fun _ => step_of_idle, fun _ w _ hs hi => ⟨latencyOf w.req, step_of_issued hs hi⟩, fun _ _ _ => step_of_waiting⟩

open Sys2Proof.Machine in
/-- Settles O9: the hardwired values are the patterns of R21. -/
theorem resetHoldsTheConstantsAndIsIdle : Obligations.ResetHoldsTheConstantsAndIsIdle :=
  ⟨rfl, rfl, rfl, rfl, rfl, State.reset_issued, State.reset_inService, State.reset_responses⟩

open Sys2Proof.Machine in
/-- Settles O18: every arm of `exec` is `answer` of its command's response. -/
theorem commandsAnswerOnceAndKeepTheRest : Obligations.CommandsAnswerOnceAndKeepTheRest :=
  fun i _ _ => exec_answeredWith i
end

section
/-! NEIGHBORS beside the eight MOVE words of R61. -/

namespace Sys2Proof.Machine

theorem firstFailure_singleton (t : Option Failure) : firstFailure [t] = t := by
  cases t <;> rfl

/-- The code of a MOVE word's response, at a legal step. -/
theorem respond_move_r0 (k : ConstRegs) {q : Request} {dirx diry : Int} (hd : decode q.cmd = .ok (.move dirx diry))
    (hs : LegalStep q.s) : (respond k q).r0 = moveLanes (operandCode q) dirx diry := by
  have hf : firstFailure [givenCodeStepFailure (operandCode q).step] = none :=
    (firstFailure_singleton _).trans (givenCodeStepFailure_of_legal hs)
  simp only [respond, hd, commandResponse, moveResponse, moveCode, guarded_ok _ hf, respondWith_ok]

theorem neighborsResponse_of_legal (k : ConstRegs) {q : Request} (hs : LegalStep q.s) :
    neighborsResponse k q =
      { status := 0, rs := q.s
        r0 := moveLanes (operandCode q) 0 1, r1 := moveLanes (operandCode q) 0 (-1)
        r2 := moveLanes (operandCode q) 1 0, r3 := moveLanes (operandCode q) (-1) 0
        r4 := moveLanes (operandCode q) 1 1, r5 := moveLanes (operandCode q) (-1) 1
        r6 := moveLanes (operandCode q) 1 (-1), r7 := moveLanes (operandCode q) (-1) (-1) } := by
  have hf : firstFailure [givenCodeStepFailure (operandCode q).step] = none :=
    (firstFailure_singleton _).trans (givenCodeStepFailure_of_legal hs)
  rw [neighborsResponse, neighborSet, guarded_ok _ hf, respondWith_ok]
  rfl

theorem neighborsResponse_of_failure (k : ConstRegs) {q : Request} {e : Failure}
    (h : givenCodeStepFailure q.s = some e) : neighborsResponse k q = raiseFailure e := by
  have hf : firstFailure [givenCodeStepFailure (operandCode q).step] = some e :=
    (firstFailure_singleton _).trans h
  rw [neighborsResponse, neighborSet, guarded_error _ hf, respondWith_error]

end Sys2Proof.Machine

open Sys2Proof Sys2Proof.Machine in
/-- Settles O53: both sides are `moveLanes` of the same code, in the eight directions of R61. -/
theorem neighborsAreEightMoves : Obligations.NeighborsAreEightMoves := by
  refine ⟨by decide, fun s p hp => ?_⟩
  have hexec : ∃ t, exec .neighbors s = .next t ∧ AnsweredWith s p (neighborsResponse s.k p.req) t :=
    exec_answeredWith .neighbors hp
  intro move
  refine ⟨fun hs => ?_, fun h0 => ?_, fun hl => ?_⟩
  · have hmove : ∀ (w : CommandWord) (dirx diry : Int), Sys2Proof.decode w = .ok (.move dirx diry) →
        move w = moveLanes (operandCode p.req) dirx diry :=
      fun w _ _ hd => respond_move_r0 s.k (q := { p.req with cmd := w }) hd hs
    rw [hmove 0x408 0 1 (by decide), hmove 0xC08 0 (-1) (by decide), hmove 0x108 1 0 (by decide),
      hmove 0x308 (-1) 0 (by decide), hmove 0x508 1 1 (by decide), hmove 0x708 (-1) 1 (by decide),
      hmove 0xD08 1 (-1) (by decide), hmove 0xF08 (-1) (-1) (by decide), ← neighborsResponse_of_legal s.k hs]
    exact hexec
  · rw [neighborsResponse_of_failure s.k (givenCodeStepFailure_of_zero h0)] at hexec
    exact hexec
  · rw [neighborsResponse_of_failure s.k (givenCodeStepFailure_of_large hl)] at hexec
    exact hexec
end

section
/-! What a requester is owed, move by move (R46): only an issue adds to it, only the requester's own collection takes from
it, and what is taken is its oldest response. -/

namespace Sys2Proof.Machine

/-- A list's first element satisfying `p` followed by the others that do. -/
theorem find?_append_filter_eraseP {α : Type} (p : α → Bool) (l : List α) :
    (l.find? p).toList ++ (l.eraseP p).filter p = l.filter p := by
  induction l with
  | nil => rfl
  | cons a rest ih => cases h : p a <;> simp [h, ih]

/-- Erasing an element outside `q` leaves the elements that satisfy `q`. -/
theorem filter_eraseP_of_disjoint {α : Type} {p q : α → Bool} (h : ∀ a, p a = true → q a = false) (l : List α) :
    (l.eraseP p).filter q = l.filter q := by
  induction l with
  | nil => rfl
  | cons a rest ih =>
    cases hp : p a with
    | false => simp [hp, List.filter_cons, ih]
    | true => simp [hp, h a hp]

variable (requester : Nat) (s : State)

theorem owed_acceptNext (h : s.inService = none) : owed requester (acceptNext s) = owed requester s := by
  cases hi : s.issued with
  | nil => rw [acceptNext_of_idle s hi]
  | cons w rest =>
    cases hw : w.requester == requester <;> simp [acceptNext_of_issued s w rest hi, owed, h, hi, hw]

theorem owed_waitOne {p : InService} (n : Nat) (h : s.inService = some p) :
    owed requester (waitOne s p n) = owed requester s := by
  cases hr : p.requester == requester <;> simp [owed, h, hr]

theorem owed_deliver {p : InService} (h : s.inService = some p) :
    owed requester (s.deliver p (respond s.k p.req)) = owed requester s := by
  cases hr : p.requester == requester <;> simp [owed, isFor, h, hr]

/-- The engine's step owes each requester what was owed before. -/
theorem owed_afterStep : owed requester s.afterStep = owed requester s := by
  obtain ⟨hs, h⟩ | ⟨p, n, hs, _, h⟩ | ⟨p, ⟨hs, _⟩, h⟩ := afterStep_cases s
  · rw [h, owed_acceptNext requester s hs]
  · rw [h, owed_waitOne requester s n hs]
  · rw [h, owed_deliver requester s hs]

theorem owed_issue_same (q : Request) : owed requester (s.issue requester q) = owed requester s ++ [respond s.k q] := by
  simp [owed]

theorem owed_issue_other {r : Nat} (h : r ≠ requester) (q : Request) :
    owed requester (s.issue r q) = owed requester s := by
  simp [owed, h]

/-- What a requester takes is the head of what it was owed. -/
theorem nextResponse_append_owed_collect :
    (s.nextResponse requester).toList ++ owed requester (s.collect requester) = owed requester s := by
  simp only [State.nextResponse, owed, State.collect_responses, State.collect_inService, State.collect_issued,
    State.collect_k, Option.toList_map, ← List.append_assoc, ← List.map_append, find?_append_filter_eraseP]

theorem owed_collect_other {r : Nat} (h : r ≠ requester) : owed requester (s.collect r) = owed requester s := by
  have hd : ∀ a, isFor r a = true → isFor requester a = false := by
    intro a ha
    simp only [isFor, beq_iff_eq, beq_eq_false_iff_ne] at ha ⊢
    exact ha ▸ h
  simp [owed, filter_eraseP_of_disjoint hd]

/-- Conservation over one move: what it hands over and what is then owed are what was owed and what it issues. -/
theorem handedTo_append_owed_afterMove {m : Move} (h : m ≠ .assertReset) :
    handedTo requester s m ++ owed requester (s.afterMove m) =
      owed requester s ++ (issuedInMove requester m).map (respond s.k) := by
  cases m with
  | engine => simp [handedTo, issuedInMove, State.afterMove, owed_afterStep]
  | issue r q =>
    by_cases hr : r = requester
    · subst hr; simp [handedTo, issuedInMove, State.afterMove, owed_issue_same]
    · simp [handedTo, issuedInMove, State.afterMove, owed_issue_other requester s hr, hr]
  | collect r =>
    by_cases hr : r = requester
    · subst hr; simp [handedTo, issuedInMove, State.afterMove, nextResponse_append_owed_collect]
    · simp [handedTo, issuedInMove, State.afterMove, owed_collect_other requester s hr, hr]
  | assertReset => exact absurd rfl h

theorem noReset_cons {m : Move} {rest : List Move} : NoReset (m :: rest) ↔ m ≠ .assertReset ∧ NoReset rest := by
  simp [NoReset, eq_comm]

theorem issuedBy_cons (m : Move) (rest : List Move) :
    issuedBy requester (m :: rest) = issuedInMove requester m ++ issuedBy requester rest := List.flatMap_cons

end Sys2Proof.Machine

open Sys2Proof.Machine in
/-- Settles O13, by induction on the moves: each move conserves what is taken and owed. -/
theorem responsesComeInOrderOnceEach : Obligations.ResponsesComeInOrderOnceEach := by
  intro requester moves
  induction moves with
  | nil => intro s _; simp [collectedBy, issuedBy]
  | cons m rest ih =>
    intro s hno
    obtain ⟨hm, hrest⟩ := noReset_cons.1 hno
    have hk : (s.afterMove m).k = s.k := afterMove_k s m hm
    calc collectedBy requester (m :: rest) s ++ owed requester (runMoves (m :: rest) s)
        = handedTo requester s m ++ (collectedBy requester rest (s.afterMove m) ++
            owed requester (runMoves rest (s.afterMove m))) := by rw [collectedBy, runMoves_cons, List.append_assoc]
      _ = (handedTo requester s m ++ owed requester (s.afterMove m)) ++
            (issuedBy requester rest).map (respond s.k) := by rw [ih _ hrest, hk, List.append_assoc]
      _ = owed requester s ++ (issuedBy requester (m :: rest)).map (respond s.k) := by
            rw [handedTo_append_owed_afterMove requester s hm, issuedBy_cons, List.map_append, List.append_assoc]

open Sys2Proof.Machine in
/-- Settles O14: by O13, what is taken in either run begins one and the same list, and is all of it once nothing is
owed. -/
theorem requestersCannotObserveOneAnother : Obligations.RequestersCannotObserveOneAnother := by
  intro requester moves moves' s s' hno hno' hk howed hissued
  have hrun := responsesComeInOrderOnceEach requester moves s hno
  have hrun' := responsesComeInOrderOnceEach requester moves' s' hno'
  rw [← hk, ← howed, ← hissued] at hrun'
  refine ⟨List.prefix_or_prefix_of_prefix ⟨_, hrun⟩ ⟨_, hrun'⟩, fun hnone hnone' => ?_⟩
  rw [hnone, List.append_nil] at hrun
  rw [hnone', List.append_nil] at hrun'
  exact hrun.trans hrun'.symm

open Sys2Proof.Machine in
/-- Settles O19: the response is `respond` of the constants and the request. -/
theorem responseDependsOnTheRequestOnly : Obligations.ResponseDependsOnTheRequestOnly := by
  intro s s' p p' hs hs' hk hq
  have hrsp : respond s.k p.req = respond s'.k p'.req := by rw [hk, hq]
  exact ⟨respond s.k p.req, _, _, step_of_serving hs, step_of_serving hs', deliver_answeredWith s p _,
    hrsp ▸ deliver_answeredWith s' p' _⟩
end

section
/-! Reading the slots of a packet out of its bytes (D27). -/

namespace Sys2Proof.Machine

/-- The slots before the one read are skipped. -/
theorem slotAt_littleEndian_append {m at_ : Nat} (h : m ≤ at_) (v n : Nat) (rest : List (BitVec 8)) :
    slotAt (littleEndian m v ++ rest) at_ n = slotAt rest (at_ - m) n := by
  have hd : (littleEndian m v).drop at_ = [] := List.drop_eq_nil_of_le (by simpa using h)
  rw [slotAt, slotAt, List.drop_append, hd, List.nil_append, littleEndian_length]

/-- A slot written first is read back whole when its bytes hold its width. -/
theorem slotAt_zero_littleEndian_append {w n : Nat} (h : w ≤ 8 * n) (x : BitVec w) (rest : List (BitVec 8)) :
    slotAt (littleEndian n x.toNat ++ rest) 0 n = x.toNat := by
  have hlt : x.toNat < 256 ^ n := calc
    x.toNat < 2 ^ w := x.isLt
    _ ≤ 2 ^ (8 * n) := Nat.pow_le_pow_right (by decide) h
    _ = 256 ^ n := by rw [Nat.pow_mul]
  rw [slotAt, List.drop_zero, List.take_left' (littleEndian_length n x.toNat), fromLittleEndian_littleEndian,
    Nat.mod_eq_of_lt hlt]

theorem slotAt_zero_littleEndian {w n : Nat} (h : w ≤ 8 * n) (x : BitVec w) :
    slotAt (littleEndian n x.toNat) 0 n = x.toNat := by
  simpa using slotAt_zero_littleEndian_append h x []

@[simp] theorem requestBytes_length (q : Request) : (requestBytes q).length = 22 := by
  simp [requestBytes]

@[simp] theorem responseBytes_length (r : Response) : (responseBytes r).length = 67 := by
  simp [responseBytes]

theorem requestOfBytes_requestBytes (q : Request) : requestOfBytes (requestBytes q) = some q := by
  rw [requestOfBytes, if_pos (requestBytes_length q)]
  simp [requestBytes, slotAt_littleEndian_append, slotAt_zero_littleEndian_append, slotAt_zero_littleEndian]

theorem responseOfBytes_responseBytes (r : Response) : responseOfBytes (responseBytes r) = some r := by
  rw [responseOfBytes, if_pos (responseBytes_length r)]
  simp [responseBytes, slotAt_littleEndian_append, slotAt_zero_littleEndian_append, slotAt_zero_littleEndian]

end Sys2Proof.Machine

open Sys2Proof.Machine in
/-- Settles O56: each slot is read back from its own bytes. -/
theorem packetBytesRoundTrip : Obligations.PacketBytesRoundTrip :=
  ⟨fun q => ⟨requestBytes_length q, requestOfBytes_requestBytes q⟩,
    fun r => ⟨responseBytes_length r, responseOfBytes_responseBytes r⟩⟩
end

section
/-! Which command words are illegal: R57 on the fields of a word, and on the word as a number. -/

namespace Sys2Proof

variable {w : CommandWord}

/-! ## The fields as numbers (R51, R52) -/

theorem opcodeField_toNat (w : CommandWord) : (opcodeField w).toNat = w.toNat % 2 ^ 8 := by
  simp [opcodeField]

theorem zeroFieldG_eq_zero_iff : zeroFieldG w = 0#24 ↔ w.toNat / 2 ^ 8 = 0 := by
  rw [← BitVec.toNat_inj, zeroFieldG, BitVec.extractLsb'_toNat, Nat.shiftRight_eq_div_pow, BitVec.toNat_ofNat]
  omega

theorem zeroFieldM_eq_zero_iff : zeroFieldM w = 0#20 ↔ w.toNat / 2 ^ 12 = 0 := by
  rw [← BitVec.toNat_inj, zeroFieldM, BitVec.extractLsb'_toNat, Nat.shiftRight_eq_div_pow, BitVec.toNat_ofNat]
  omega

theorem dxField_eq_two_iff : dxField w = 0b10#2 ↔ w.toNat / 2 ^ 8 % 4 = 2 := by
  rw [← BitVec.toNat_inj, dxField, BitVec.extractLsb'_toNat, Nat.shiftRight_eq_div_pow]
  rfl

theorem dyField_eq_two_iff : dyField w = 0b10#2 ↔ w.toNat / 2 ^ 10 % 4 = 2 := by
  rw [← BitVec.toNat_inj, dyField, BitVec.extractLsb'_toNat, Nat.shiftRight_eq_div_pow]
  rfl

theorem opcodeField_eq_moveOpcode_iff : opcodeField w = moveOpcode ↔ w.toNat % 2 ^ 8 = 8 := by
  rw [← BitVec.toNat_inj, opcodeField_toNat]
  rfl

/-- The opcodes with no row of format G are 0, that of MOVE, and those above the table (R53). -/
theorem formatGCommand_eq_none_iff (op : BitVec 8) :
    formatGCommand op = none ↔ op.toNat = 0 ∨ op.toNat = 8 ∨ 9 < op.toNat := by
  simp only [formatGCommand, formatGRows, Option.map_eq_none_iff, List.find?_eq_none, List.forall_mem_cons,
    List.not_mem_nil, false_implies, implies_true, and_true, beq_iff_eq]
  bv_omega

/-! ## The legal words of each opcode -/

theorem exists_decode_of_formatG {i : Instr} (h : formatGCommand (opcodeField w) = some i) :
    (∃ j, decode w = .ok j) ↔ zeroFieldG w = 0#24 := by
  by_cases hz : zeroFieldG w = 0#24 <;> simp [decode, h, hz]

theorem exists_decode_of_move (h : opcodeField w = moveOpcode) :
    (∃ i, decode w = .ok i) ↔ zeroFieldM w = 0#20 ∧ dxField w ≠ 0b10#2 ∧ dyField w ≠ 0b10#2 := by
  have hg : formatGCommand moveOpcode = none := by decide
  by_cases hz : zeroFieldM w = 0#20
  · by_cases hx : dxField w = 0b10#2
    · simp [decode, h, hg, hz, directionOf, hx]
    · by_cases hy : dyField w = 0b10#2 <;> simp [decode, h, hg, hz, directionOf, hx, hy]
  · simp [decode, h, hg, hz]

theorem decode_of_reservedOpcode (hg : formatGCommand (opcodeField w) = none) (hm : opcodeField w ≠ moveOpcode) :
    decode w = .error .reservedOpcode := by
  simp [decode, hg, hm]

/-! ## Illegal words -/

/-- The three grounds of R57, on a command word as a number. -/
def IllegalNumber (w : Nat) : Prop :=
  (w % 2 ^ 8 = 0 ∨ 9 < w % 2 ^ 8) ∨ (w % 2 ^ 8 ≠ 8 ∧ w / 2 ^ 8 ≠ 0) ∨ (w % 2 ^ 8 = 8 ∧ w / 2 ^ 12 ≠ 0) ∨
    (w % 2 ^ 8 = 8 ∧ (w / 2 ^ 8 % 4 = 2 ∨ w / 2 ^ 10 % 4 = 2))

theorem exists_decode_iff (w : CommandWord) : (∃ i, decode w = .ok i) ↔ ¬ IllegalNumber w.toNat := by
  unfold IllegalNumber
  have hop := formatGCommand_eq_none_iff (opcodeField w)
  rw [opcodeField_toNat] at hop
  cases hg : formatGCommand (opcodeField w) with
  | some i =>
    have hrow : ¬ (w.toNat % 2 ^ 8 = 0 ∨ w.toNat % 2 ^ 8 = 8 ∨ 9 < w.toNat % 2 ^ 8) := by simpa [hg] using hop
    rw [exists_decode_of_formatG hg, zeroFieldG_eq_zero_iff]
    omega
  | none =>
    by_cases hm : opcodeField w = moveOpcode
    · rw [exists_decode_of_move hm, zeroFieldM_eq_zero_iff, Ne, Ne, dxField_eq_two_iff, dyField_eq_two_iff]
      have := opcodeField_eq_moveOpcode_iff.1 hm
      omega
    · have hno : ¬ ∃ i, decode w = .ok i := by simp [decode_of_reservedOpcode hg hm]
      rw [opcodeField_eq_moveOpcode_iff] at hm
      have := hop.1 hg
      exact iff_of_false hno (by omega)

theorem illegalNumber_iff_no_command (w : CommandWord) : IllegalNumber w.toNat ↔ ∀ i, decode w ≠ .ok i := by
  rw [← not_exists, exists_decode_iff, not_not]

end Sys2Proof

namespace Sys2Proof.Machine

/-- An illegal word is answered with `IllegalCommand` whatever the constants and the operand slots hold (R57, R158). -/
theorem respond_of_illegal (k : ConstRegs) {q : Request} (h : ∀ i, decode q.cmd ≠ .ok i) :
    respond k q = failureResponse 5 := by
  cases hd : decode q.cmd with
  | ok i => exact absurd hd (h i)
  | error _ => simp only [respond, hd]; exact raiseFailure_eq .illegalCommand

theorem step_of_illegal {s : State} {p : InService} (hs : Serving s p) (h : ∀ i, decode p.req.cmd ≠ .ok i) :
    ∃ t, step s = .next t ∧ AnsweredWith s p (failureResponse 5) t := by
  have := step_of_serving hs
  rw [respond_of_illegal s.k h] at this
  exact ⟨_, this, deliver_answeredWith s p _⟩

end Sys2Proof.Machine

open Sys2Proof Sys2Proof.Machine in
/-- Settles O4: the grounds of R57 are the words `decode` gives no command, and serving such a word delivers
`IllegalCommand`. -/
theorem illegalWordsAreAnswered : Obligations.IllegalWordsAreAnswered :=
  fun _ p hs =>
    have hiff := illegalNumber_iff_no_command p.req.cmd
    ⟨hiff, fun h => step_of_illegal hs (hiff.1 h)⟩

/-- Settles O1: each word of the tables is a closed instance of `decode`. -/
theorem tableWordsDecode : Obligations.TableWordsDecode := by
  unfold Obligations.TableWordsDecode
  decide
end

section
/-! What the commands take from the constant registers (R70 to R73): RANGE returns all five, the quantizer and the decoder
read the domain but not the advisory step, and the interleaver and the neighbor calculator read none. -/

namespace Sys2Proof.Machine

/-! ## The advisory step is not read -/

theorem quantize_maxStep (k : ConstRegs) (m : Step) : quantize { k with maxStep := m } = quantize k := rfl

theorem decodeCell_maxStep (k : ConstRegs) (m : Step) : decodeCell { k with maxStep := m } = decodeCell k := rfl

/-- Only RANGE depends on `K[4]`. -/
theorem commandResponse_maxStep {i : Instr} (h : i ≠ .range) (k : ConstRegs) (m : Step) (q : Request) :
    commandResponse i { k with maxStep := m } q = commandResponse i k q := by
  cases i with
  | range => exact absurd rfl h
  | interleave => rfl
  | deinterleave => rfl
  | quant => simp only [commandResponse, quantResponse, quantize_maxStep]
  | encode => simp only [commandResponse, encodeResponse, quantize_maxStep]
  | decode => simp only [commandResponse, decodeResponse, decodeCell_maxStep]
  | decodec => simp only [commandResponse, decodecResponse, decodeCell_maxStep]
  | move dirx diry => rfl
  | neighbors => rfl

/-! ## A quantization that passes its tests -/

theorem quantize_of_inDomain {k : ConstRegs} {lon lat : F64} {step : Step} (hs : LegalStep step)
    (hk : domainOk k = true) (hc : InDomain k lon lat) :
    quantize k lon lat step = .ok
      { even := quantizeAxis lat k.latMin (latSpan k) step
        odd := quantizeAxis lon k.lonMin (lonSpan k) step } := by
  refine guarded_ok _ ?_
  rw [newCodeStepFailure_of_legal hs, domainFailure_of_ok hk, coordFailure_of_inDomain hc]
  rfl

/-- ENCODE of a pair in the hardwired domain succeeds at every legal step, and its code carries the step. -/
theorem encodeResponse_of_inDomain {q : Request} (hs : LegalStep q.s) (hc : InDomain hardwiredK q.a q.b) :
    (encodeResponse hardwiredK q).status = 0 ∧ (encodeResponse hardwiredK q).rs = q.s := by
  have hq : quantize hardwiredK (operandLon q) (operandLat q) (operandStep q) = .ok _ :=
    quantize_of_inDomain hs domainOk_hardwired hc
  rw [encodeResponse, hq, respondWith_ok]
  exact ⟨rfl, rfl⟩

/-! ## RANGE -/

/-- The response of RANGE with the hardwired constants: the patterns of R21, whatever the operands. -/
theorem rangeResponse_hardwired (q : Request) :
    rangeResponse hardwiredK q =
      { status := 0, rs := 26, r0 := 0xC0554345B1A57F00#64, r1 := 0x40554345B1A57F00#64,
        r2 := 0xC066800000000000#64, r3 := 0x4066800000000000#64, r4 := 0, r5 := 0, r6 := 0, r7 := 0 } := rfl

end Sys2Proof.Machine

open Sys2Proof.Machine in
/-- Settles O21: the four response functions take the constants as an argument they do not use. -/
theorem domainFreeCommandsIgnoreTheConstants : Obligations.DomainFreeCommandsIgnoreTheConstants :=
  fun _ _ _ _ _ => ⟨rfl, rfl, rfl, rfl⟩

open Sys2Proof.Machine in
/-- Settles O22: neither the quantizer nor the decoder reads `K[4]`, and the steps 27 to 32 are legal. -/
theorem advisoryStepIsNeverCompared : Obligations.AdvisoryStepIsNeverCompared :=
  ⟨rfl, fun _ k q m h => commandResponse_maxStep h k m q, fun q hlo hhi hc =>
    have hs : LegalStep q.s := ⟨by omega, hhi⟩
    encodeResponse_of_inDomain hs hc⟩

open Sys2Proof Sys2Proof.Machine in
/-- Settles O30: `exec` answers with RANGE's response, which reads the constants only. -/
theorem rangeReturnsTheDomain : Obligations.RangeReturnsTheDomain := by
  refine ⟨by decide, fun s p hk hp => ?_⟩
  have h := exec_answeredWith .range hp
  rwa [hk, commandResponse, rangeResponse_hardwired] at h
end

section
/-! The two lanes of a value bit by bit, and how they make it up again (R75 to R77, R79 to R81). -/

namespace Sys2Proof.Machine

/-- An even position of a value is a bit of its even lane; from bit 32 of the lane on, both are zero. -/
theorem getLsbD_evenLane (v : Slot) (i : Nat) : (deinterleave v).even.getLsbD i = v.getLsbD (2 * i) := by
  rw [getLsbD_deinterleave_even]
  by_cases h : i < 32
  · simp [h]
  · rw [BitVec.getLsbD_of_ge v (2 * i) (by omega), Bool.and_false]

/-- An odd position of a value is a bit of its odd lane. -/
theorem getLsbD_oddLane (v : Slot) (i : Nat) : (deinterleave v).odd.getLsbD i = v.getLsbD (2 * i + 1) := by
  rw [getLsbD_deinterleave_odd]
  by_cases h : i < 32
  · simp [h]
  · rw [BitVec.getLsbD_of_ge v (2 * i + 1) (by omega), Bool.and_false]

/-- What holds at the even and at the odd positions from `2 * n` on holds at every position from there. -/
theorem forall_of_even_odd {P : Nat → Prop} (n : Nat)
    (h : ∀ i, n ≤ i → P (2 * i) ∧ P (2 * i + 1)) (j : Nat) (hj : 2 * n ≤ j) : P j := by
  obtain ⟨heven, hodd⟩ := h (j / 2) (by omega)
  rcases Nat.mod_two_eq_zero_or_one j with hm | hm
  · rwa [show 2 * (j / 2) = j by omega] at heven
  · rwa [show 2 * (j / 2) + 1 = j by omega] at hodd

/-- Two values with equal bits at the even and at the odd positions are equal. -/
theorem eq_of_even_odd {v v' : Slot}
    (h : ∀ i, v.getLsbD (2 * i) = v'.getLsbD (2 * i) ∧ v.getLsbD (2 * i + 1) = v'.getLsbD (2 * i + 1)) : v = v' :=
  BitVec.eq_of_getLsbD_eq fun j _ =>
    forall_of_even_odd (P := fun j => v.getLsbD j = v'.getLsbD j) 0 (fun i _ => h i) j (Nat.zero_le j)

theorem evenLane_interleave (x y : Lane) : (deinterleave (interleave x y)).even = x :=
  BitVec.eq_of_getLsbD_eq fun i _ => (getLsbD_evenLane _ i).trans (getLsbD_interleave_even x y i)

theorem oddLane_interleave (x y : Lane) : (deinterleave (interleave x y)).odd = y :=
  BitVec.eq_of_getLsbD_eq fun i _ => (getLsbD_oddLane _ i).trans (getLsbD_interleave_odd x y i)

theorem interleave_lanes (v : Slot) : interleave (deinterleave v).even (deinterleave v).odd = v :=
  eq_of_even_odd fun i =>
    ⟨(getLsbD_interleave_even _ _ i).trans (getLsbD_evenLane v i),
      (getLsbD_interleave_odd _ _ i).trans (getLsbD_oddLane v i)⟩

/-- A number is below `2^n` exactly when it has no bit from position `n` on. -/
theorem toNat_lt_two_pow_iff {w : Nat} (v : BitVec w) (n : Nat) :
    v.toNat < 2 ^ n ↔ ∀ i, n ≤ i → v.getLsbD i = false := by
  constructor
  · intro h i hi
    rw [← BitVec.testBit_toNat]
    exact Nat.testBit_lt_two_pow (h.trans_le (Nat.pow_le_pow_right (by decide) hi))
  · intro h
    exact Nat.lt_pow_two_of_testBit _ fun i hi => (BitVec.testBit_toNat v).trans (h i hi)

/-- The window of a code holds the windows of its two lanes, at every step. -/
theorem toNat_lt_four_pow_iff (bits : Slot) (s : Nat) :
    bits.toNat < 4 ^ s ↔ (deinterleave bits).even.toNat < 2 ^ s ∧ (deinterleave bits).odd.toNat < 2 ^ s := by
  rw [show 4 ^ s = 2 ^ (2 * s) from (Nat.pow_mul 2 2 s).symm]
  simp only [toNat_lt_two_pow_iff, getLsbD_evenLane, getLsbD_oddLane]
  constructor
  · intro h
    exact ⟨fun i hi => h _ (by omega), fun i hi => h _ (by omega)⟩
  · rintro ⟨heven, hodd⟩
    exact forall_of_even_odd s fun i hi => ⟨heven i hi, hodd i hi⟩

/-! ## The operands and the slots of the two commands -/

theorem getLsbD_operandX (q : Request) {i : Nat} (h : i < 32) : (operandX q).getLsbD i = q.a.getLsbD i := by
  simp [operandX, h]

theorem getLsbD_operandY (q : Request) {i : Nat} (h : i < 32) : (operandY q).getLsbD i = q.b.getLsbD i := by
  simp [operandY, h]

/-- Zero-extension keeps the bits of a lane and adds none. -/
theorem getLsbD_laneSlot (lane : Lane) (i : Nat) : (laneSlot lane).getLsbD i = lane.getLsbD i := by
  rw [laneSlot, BitVec.getLsbD_setWidth]
  by_cases h : i < 64
  · simp [h]
  · rw [BitVec.getLsbD_of_ge lane i (by omega), Bool.and_false]

end Sys2Proof.Machine

open Sys2Proof.Machine in
/-- Settles O33: each direction agrees bit by bit, at the even and at the odd positions. -/
theorem lanesRoundTrip : Obligations.LanesRoundTrip :=
  ⟨fun x y => congrArg₂ Lanes.mk (evenLane_interleave x y) (oddLane_interleave x y), interleave_lanes⟩

open Sys2Proof.Machine in
/-- Settles O34: the positions from `2 * s` on are the lanes' positions from `s` on. -/
theorem canonicalCodeHasBoundedLanes : Obligations.CanonicalCodeHasBoundedLanes :=
  fun bits s _ => toNat_lt_four_pow_iff bits s

open Sys2Proof Sys2Proof.Machine in
/-- Settles O31: the code is `interleave` of the two operands. -/
theorem interleavePlacesTheBits : Obligations.InterleavePlacesTheBits := by
  refine ⟨by decide, fun s p hp => ?_⟩
  obtain ⟨t, hnext, hanswered⟩ := exec_answeredWith .interleave hp
  refine ⟨interleave (operandX p.req) (operandY p.req), t, hnext, hanswered, fun i hi => ?_⟩
  rw [getLsbD_interleave_even, getLsbD_interleave_odd]
  exact ⟨getLsbD_operandX p.req hi, getLsbD_operandY p.req hi⟩

open Sys2Proof Sys2Proof.Machine in
/-- Settles O32: the two slots are the zero-extended lanes of `A`. -/
theorem deinterleaveSplitsTheBits : Obligations.DeinterleaveSplitsTheBits := by
  refine ⟨by decide, fun s p hp => ?_⟩
  obtain ⟨t, hnext, hanswered⟩ := exec_answeredWith .deinterleave hp
  refine ⟨laneSlot (deinterleave p.req.a).even, laneSlot (deinterleave p.req.a).odd, t, hnext, hanswered,
    fun i _ => ?_, fun i hi => ?_⟩ <;> rw [getLsbD_laneSlot, getLsbD_laneSlot]
  · exact ⟨getLsbD_evenLane p.req.a i, getLsbD_oddLane p.req.a i⟩
  · exact ⟨BitVec.getLsbD_of_ge _ i hi, BitVec.getLsbD_of_ge _ i hi⟩
end

section
/-! The shift-and-mask rounds of R78: each halves, or doubles, the groups in which the bits of a lane stand. -/

namespace Sys2Proof.Machine

/-- The bits of the lane `a` stand in `v` in groups of `w`, each followed by `w` zero bits: the lane itself for `w = 32`,
its spread form for `w = 1`. -/
def InGroups (w : Nat) (a : Lane) (v : Slot) : Prop :=
  ∀ q r, r < w → v.getLsbD (w * (2 * q) + r) = a.getLsbD (w * q + r) ∧ v.getLsbD (w * (2 * q + 1) + r) = false

/-- The mask of a round: ones and zeros in alternating groups of `w`, from ones at the bottom. -/
abbrev IsGroupMask (w : Nat) (mask : Slot) : Prop := ∀ j : Fin 64, mask.getLsbD j = decide (j.val / w % 2 = 0)

variable {w : Nat} {a : Lane} {v mask : Slot}

/-! ## Masking -/

/-- A group mask keeps the groups at the even places and clears those at the odd ones. -/
theorem getLsbD_and_groupMask (hm : IsGroupMask w mask) (v : Slot) (n : Nat) {r : Nat} (hr : r < w) :
    (v &&& mask).getLsbD (w * n + r) = (v.getLsbD (w * n + r) && decide (n % 2 = 0)) := by
  rw [BitVec.getLsbD_and]
  by_cases h : w * n + r < 64
  · have hgroup : (w * n + r) / w = n := by
      rw [Nat.mul_add_div (by omega), Nat.div_eq_of_lt hr, Nat.add_zero]
    rw [hm ⟨_, h⟩, hgroup]
  · rw [BitVec.getLsbD_of_ge v _ (by omega), Bool.false_and, Bool.false_and]

theorem getLsbD_and_groupMask_even (hm : IsGroupMask w mask) (v : Slot) (q : Nat) {r : Nat} (hr : r < w) :
    (v &&& mask).getLsbD (w * (2 * q) + r) = v.getLsbD (w * (2 * q) + r) := by
  simp [getLsbD_and_groupMask hm v _ hr]

theorem getLsbD_and_groupMask_odd (hm : IsGroupMask w mask) (v : Slot) (q : Nat) {r : Nat} (hr : r < w) :
    (v &&& mask).getLsbD (w * (2 * q + 1) + r) = false := by
  simp [getLsbD_and_groupMask hm v _ hr, Nat.add_mod]

/-! ## One round -/

/-- Shifting up by `w` moves the bit of position `j` to position `j + w`. -/
theorem getLsbD_shiftLeft_add (v : Slot) {j w : Nat} (h : j + w < 64) : (v <<< w).getLsbD (j + w) = v.getLsbD j := by
  rw [BitVec.getLsbD_shiftLeft, Nat.add_sub_cancel]
  simp only [h, decide_true, Nat.not_lt.2 (Nat.le_add_left w j), decide_false, Bool.not_false, Bool.true_and]

/-- A round of the spreading form halves the groups: the upper half of each group moves up by `w`. -/
theorem inGroups_shiftMaskLeft (hm : IsGroupMask w mask) (h : InGroups (2 * w) a v) :
    InGroups w a (shiftMaskLeft w mask v) := by
  intro q r hr
  refine ⟨?_, getLsbD_and_groupMask_odd hm _ q hr⟩
  have hdouble : w * (2 * q) = 2 * (w * q) := by ring
  by_cases h64 : w * (2 * q) + r < 64
  case neg => rw [BitVec.getLsbD_of_ge _ _ (by omega), BitVec.getLsbD_of_ge a _ (by omega)]
  rw [shiftMaskLeft, getLsbD_and_groupMask_even hm _ q hr, BitVec.getLsbD_or]
  obtain ⟨p, rfl | rfl⟩ := Nat.even_or_odd' q
  · obtain ⟨hkept, -⟩ := h p r (by omega)
    have hzero : (v <<< w).getLsbD (2 * w * (2 * p) + r) = false := by
      cases p with
      | zero => simp [hr]
      | succ p =>
        obtain ⟨-, hgap⟩ := h p (w + r) (by omega)
        rw [show 2 * w * (2 * (p + 1)) + r = 2 * w * (2 * p + 1) + (w + r) + w by ring, BitVec.getLsbD_shiftLeft,
          Nat.add_sub_cancel, hgap, Bool.and_false]
    rw [show w * (2 * (2 * p)) + r = 2 * w * (2 * p) + r by ring, hkept, hzero, Bool.or_false]
    congr 1; ring
  · obtain ⟨-, hzero⟩ := h p r (by omega)
    obtain ⟨hmoved, -⟩ := h p (w + r) (by omega)
    have hpos : 2 * w * (2 * p + 1) + r = 2 * w * (2 * p) + (w + r) + w := by ring
    rw [show w * (2 * (2 * p + 1)) + r = 2 * w * (2 * p + 1) + r by ring, hzero, Bool.false_or,
      hpos, getLsbD_shiftLeft_add v (by rw [← hpos]; linarith), hmoved]
    congr 1; ring

/-- A round of the gathering form doubles the groups: the second of each two moves down by `w`. -/
theorem inGroups_shiftMaskRight (hm : IsGroupMask (2 * w) mask) (h : InGroups w a v) :
    InGroups (2 * w) a (shiftMaskRight w mask v) := by
  intro q r hr
  refine ⟨?_, getLsbD_and_groupMask_odd hm _ q hr⟩
  rw [shiftMaskRight, getLsbD_and_groupMask_even hm _ q hr, BitVec.getLsbD_or, BitVec.getLsbD_ushiftRight]
  rcases Nat.lt_or_ge r w with hlow | hhigh
  · obtain ⟨hkept, hzero⟩ := h (2 * q) r hlow
    rw [show 2 * w * (2 * q) + r = w * (2 * (2 * q)) + r by ring, hkept,
      show w + (w * (2 * (2 * q)) + r) = w * (2 * (2 * q) + 1) + r by ring, hzero, Bool.or_false]
    congr 1; ring
  · obtain ⟨r, rfl⟩ := Nat.exists_eq_add_of_le hhigh
    obtain ⟨-, hzero⟩ := h (2 * q) r (by omega)
    obtain ⟨hmoved, -⟩ := h (2 * q + 1) r (by omega)
    rw [show 2 * w * (2 * q) + (w + r) = w * (2 * (2 * q) + 1) + r by ring, hzero,
      show w + (w * (2 * (2 * q) + 1) + r) = w * (2 * (2 * q + 1)) + r by ring, hmoved, Bool.false_or]
    congr 1; ring

/-! ## From the first round to the last -/

theorem inGroups_laneSlot (a : Lane) : InGroups 32 a (laneSlot a) := by
  intro q r hr
  rw [getLsbD_laneSlot, getLsbD_laneSlot]
  refine ⟨?_, BitVec.getLsbD_of_ge a _ (by omega)⟩
  cases q with
  | zero => rfl
  | succ q => rw [BitVec.getLsbD_of_ge a _ (by omega), BitVec.getLsbD_of_ge a _ (by omega)]

theorem eq_extractLsb'_of_inGroups (h : InGroups 32 a v) : v.extractLsb' 0 32 = a := by
  refine BitVec.eq_of_getLsbD_eq fun i hi => ?_
  obtain ⟨hlow, -⟩ := h 0 i hi
  simpa [hi] using hlow

/-- Groups of one bit: the even positions hold the lane and the odd ones are zero. -/
theorem inGroups_one_iff :
    InGroups 1 a v ↔ ∀ i, v.getLsbD (2 * i) = a.getLsbD i ∧ v.getLsbD (2 * i + 1) = false := by
  simp [InGroups]

theorem inGroups_one_spread (a : Lane) : InGroups 1 a (spread a) := by
  refine inGroups_one_iff.2 fun i => ?_
  simp [getLsbD_spread, show (2 * i + 1) % 2 = 1 by omega]

theorem eq_spread_of_inGroups (h : InGroups 1 a v) : v = spread a := by
  refine eq_of_even_odd fun i => ?_
  obtain ⟨heven, hodd⟩ := inGroups_one_iff.1 h i
  obtain ⟨heven', hodd'⟩ := inGroups_one_iff.1 (inGroups_one_spread a) i
  exact ⟨heven.trans heven'.symm, hodd.trans hodd'.symm⟩

/-- The mask alone (the round of shift 0) leaves the even positions. -/
theorem inGroups_one_squash (hm : IsGroupMask 1 mask) (v : Slot) : InGroups 1 (squash v) (shiftMaskRight 0 mask v) := by
  intro q r hr
  refine ⟨?_, getLsbD_and_groupMask_odd hm _ q hr⟩
  obtain rfl : r = 0 := by omega
  rw [shiftMaskRight, getLsbD_and_groupMask_even hm _ q hr, BitVec.ushiftRight_zero, BitVec.or_self]
  simpa using (getLsbD_evenLane v q).symm

theorem spreadMagic_eq (a : Lane) : spreadMagic a = spread a :=
  eq_spread_of_inGroups <|
    inGroups_shiftMaskLeft (w := 1) (by decide) <|
    inGroups_shiftMaskLeft (w := 2) (by decide) <|
    inGroups_shiftMaskLeft (w := 4) (by decide) <|
    inGroups_shiftMaskLeft (w := 8) (by decide) <|
    inGroups_shiftMaskLeft (w := 16) (by decide) <|
    inGroups_laneSlot a

theorem squashMagic_eq (v : Slot) : (squashMagic v).extractLsb' 0 32 = squash v :=
  eq_extractLsb'_of_inGroups <|
    inGroups_shiftMaskRight (w := 16) (by decide) <|
    inGroups_shiftMaskRight (w := 8) (by decide) <|
    inGroups_shiftMaskRight (w := 4) (by decide) <|
    inGroups_shiftMaskRight (w := 2) (by decide) <|
    inGroups_shiftMaskRight (w := 1) (by decide) <|
    inGroups_one_squash (by decide) v

end Sys2Proof.Machine

open Sys2Proof.Machine in
/-- Settles O35: the five rounds take the lane from groups of 32 to groups of 1, and the six rounds take it back. -/
theorem magicFormsAgree : Obligations.MagicFormsAgree := by
  refine ⟨fun x y => ?_, fun v => ?_⟩
  · rw [interleaveMagic, spreadMagic_eq, spreadMagic_eq, interleave]
  · rw [deinterleaveMagic, squashMagic_eq, squashMagic_eq, deinterleave]
end

section
/-! What rounding to the nearest value gives without looking at its fields again: it is exact on the values a pattern can
have, keeps bounds by such values, and is off by at most half of the spacing of the values (R12). -/

namespace Sys2Proof.Machine

/-! ## The values a pattern can have -/

/-- A number that some finite pattern stands for. -/
def IsF64Value (x : ℚ) : Prop := ∃ v, IsFinite v ∧ f64Value v = x

theorem isF64Value_f64Value {v : F64} (h : IsFinite v) : IsF64Value (f64Value v) := ⟨v, h, rfl⟩

theorem isF64Value_of_lt {k : ℤ} {e : ℕ} (hk : |k| < 2 ^ 53) (he : e ≤ 2044) :
    IsF64Value (k * 2 ^ e / 2 ^ 1074) := by
  rw [Int.abs_eq_natAbs] at hk
  have hk : k.natAbs < 2 ^ 53 := by exact_mod_cast hk
  have hv := viewOf_pack_exact (decide (k < 0)) one_pos hk he (mul_one _).symm
  refine ⟨_, isFinite_of_viewOf hv, ?_⟩
  rw [f64Value_of_viewOf hv, signedUnits_mul_natCast, signedUnits_natAbs]
  push_cast
  rfl

/-- A signed significand of up to 53 bits, at the scale `2^-j`. -/
theorem isF64Value_div_two_pow {k : ℤ} {j : ℕ} (hk : |k| ≤ 2 ^ 53) (hj : j ≤ 1074) :
    IsF64Value ((k : ℚ) / 2 ^ j) := by
  have hpow : (2 : ℚ) ^ 1074 = 2 ^ (1074 - j) * 2 ^ j := by rw [← pow_add]; congr 1; omega
  have hscale : ∀ k : ℚ, k * 2 ^ (1074 - j) / 2 ^ 1074 = k / 2 ^ j := fun k => by
    rw [hpow, mul_comm k]; exact mul_div_mul_left _ _ (by positivity)
  rcases hk.lt_or_eq with hlt | heq
  · rw [← hscale]; exact isF64Value_of_lt hlt (by omega)
  · obtain ⟨i, rfl, hi⟩ : ∃ i, k = i * 2 ∧ |i| < 2 ^ 53 := by
      rcases (abs_eq (by norm_num)).1 heq with rfl | rfl
      · exact ⟨2 ^ 52, by norm_num, by norm_num⟩
      · exact ⟨-2 ^ 52, by norm_num, by norm_num⟩
    have hcarry : ((i * 2 : ℤ) : ℚ) * 2 ^ (1074 - j) = i * 2 ^ (1075 - j) := by
      rw [show 1075 - j = 1074 - j + 1 by omega, pow_succ]; push_cast; ring
    rw [← hscale, hcarry]; exact isF64Value_of_lt hi (by omega)

theorem isF64Value_zero : IsF64Value 0 := by
  simpa using isF64Value_div_two_pow (k := 0) (j := 0) (by norm_num) (by omega)

theorem isF64Value_one : IsF64Value 1 := by
  simpa using isF64Value_div_two_pow (k := 1) (j := 0) (by norm_num) (by omega)

/-- Scaling up by a power of two keeps the significand of a value in the unit interval (R95). -/
theorem isF64Value_mul_two_pow {v : F64} (hv : IsFinite v) (hle : |f64Value v| ≤ 1) {k : ℕ} (hk : k ≤ 32) :
    IsF64Value (f64Value v * 2 ^ k) := by
  obtain ⟨neg, m, e, hview, hm⟩ := viewOf_eq_significand hv
  have hval : f64Value v = signedUnits neg m * 2 ^ e / 2 ^ 1074 := by
    rw [f64Value_of_viewOf hview, signedUnits_mul_natCast]; push_cast; rfl
  rcases Nat.eq_zero_or_pos m with rfl | hpos
  · have h0 : signedUnits neg 0 = 0 := by cases neg <;> rfl
    rw [hval, h0]; simpa using isF64Value_zero
  · have hunits : m * 2 ^ e ≤ 2 ^ 1074 := by
      have hp : (0 : ℚ) < 2 ^ 1074 := by positivity
      rw [f64Value_of_viewOf hview, abs_div, abs_of_pos hp, div_le_one hp, ← Int.cast_abs, abs_signedUnits,
        Int.cast_natCast] at hle
      exact Nat.cast_le.1 (hle.trans_eq (by rw [Nat.cast_pow, Nat.cast_ofNat]))
    have hpow : 2 ^ e ≤ 2 ^ 1074 := (Nat.le_mul_of_pos_left (2 ^ e) hpos).trans hunits
    have he : e ≤ 1074 := (pow_le_pow_iff_right₀ one_lt_two).1 hpow
    have habs : |signedUnits neg m| < 2 ^ 53 := by rw [abs_signedUnits]; exact_mod_cast hm
    rw [hval, div_mul_eq_mul_div, mul_assoc, ← pow_add]
    exact isF64Value_of_lt habs (by omega)

/-- A pattern that is `n` in units of `2^-j`. -/
theorem f64Value_of_units {v : F64} {neg : Bool} {n j : ℕ} (hj : j ≤ 1074)
    (h : viewOf v = .finite neg (n * 2 ^ (1074 - j))) : f64Value v = (signedUnits neg n : ℚ) / 2 ^ j := by
  have hpow : (2 : ℚ) ^ 1074 = 2 ^ (1074 - j) * 2 ^ j := by rw [← pow_add]; congr 1; omega
  rw [f64Value_of_viewOf h, signedUnits_mul_natCast, hpow]
  push_cast
  rw [mul_comm (signedUnits neg n : ℚ)]
  exact mul_div_mul_left _ _ (by positivity)

/-! ## The nearest value -/

variable {x y : ℚ} {r : F64}

/-- A number that a pattern stands for is not rounded. -/
theorem NearestEven.value_eq (h : NearestEven x r) (hx : IsF64Value x) : f64Value r = x := by
  obtain ⟨-, hnear, -⟩ := h
  obtain ⟨v, hv, rfl⟩ := hx
  have := hnear v hv
  rw [sub_self, abs_zero] at this
  exact sub_eq_zero.1 (abs_nonpos_iff.1 this)

theorem NearestEven.value_le (h : NearestEven x r) (hy : IsF64Value y) (hxy : x ≤ y) : f64Value r ≤ y := by
  obtain ⟨-, hnear, -⟩ := h
  obtain ⟨v, hv, rfl⟩ := hy
  have := (le_abs_self _).trans (hnear v hv)
  rw [abs_of_nonneg (by linarith)] at this
  linarith

theorem NearestEven.le_value (h : NearestEven x r) (hy : IsF64Value y) (hxy : y ≤ x) : y ≤ f64Value r := by
  obtain ⟨-, hnear, -⟩ := h
  obtain ⟨v, hv, rfl⟩ := hy
  have := (neg_le_abs _).trans (hnear v hv)
  rw [abs_of_nonpos (by linarith)] at this
  linarith

theorem abs_round_le {n : ℕ} (h : |x| ≤ n) : |round x| ≤ n := by
  obtain ⟨hlow, hhigh⟩ := abs_le.1 h
  have hlow' : -(n : ℚ) - 1 < round x := by linarith [sub_half_lt_round x]
  have hhigh' : (round x : ℚ) < n + 1 := by linarith [round_le_add_half x]
  have hlow' : -(n : ℤ) - 1 < round x := by exact_mod_cast hlow'
  have hhigh' : round x < (n : ℤ) + 1 := by exact_mod_cast hhigh'
  exact abs_le.2 ⟨by omega, by omega⟩

/-- Up to `2^53` steps of `2^-j` from zero, the error is at most half of a step. -/
theorem NearestEven.abs_value_sub_le (h : NearestEven x r) (j : ℕ) (hj : j ≤ 1074) (hx : |x| * 2 ^ j ≤ 2 ^ 53) :
    |f64Value r - x| ≤ 1 / 2 ^ (j + 1) := by
  obtain ⟨-, hnear, -⟩ := h
  have hp : (0 : ℚ) < 2 ^ j := by positivity
  have hround : |round (x * 2 ^ j)| ≤ 2 ^ 53 := by
    have hx' : |x * 2 ^ j| ≤ (2 ^ 53 : ℕ) := by rw [abs_mul, abs_of_pos hp]; exact_mod_cast hx
    exact_mod_cast abs_round_le hx'
  obtain ⟨v, hv, hval⟩ := isF64Value_div_two_pow hround hj
  calc |f64Value r - x| ≤ |f64Value v - x| := hnear v hv
    _ = |x * 2 ^ j - round (x * 2 ^ j)| / 2 ^ j := by
        rw [hval, abs_sub_comm, ← abs_of_pos hp, ← abs_div, abs_of_pos hp, sub_div, mul_div_cancel_right₀ _ hp.ne']
    _ ≤ 1 / 2 / 2 ^ j := by gcongr; exact abs_sub_round _
    _ = 1 / 2 ^ (j + 1) := by rw [pow_succ', div_div]

/-- Numbers up to `2^64` are within the finite range. -/
theorem abs_le_largestFinite (h : |x| ≤ 2 ^ 64) : |x| ≤ largestFinite := by
  have hpow : (2 : ℚ) ^ 64 ≤ 2 ^ 971 := pow_le_pow_right₀ one_le_two (by omega)
  have hfac : (2 : ℚ) ^ 971 ≤ (2 ^ 53 - 1) * 2 ^ 971 := le_mul_of_one_le_left (by positivity) (by norm_num)
  exact h.trans (hpow.trans hfac)

end Sys2Proof.Machine
end

section
/-! The coordinate test (R93), and what QUANT and ENCODE answer on each side of it (R100, R101). -/

namespace Sys2Proof.Machine

/-! ## Patterns that are not finite -/

theorem isNaN_or_infinity_of_not_isFinite {v : F64} (h : ¬ IsFinite v) :
    IsNaN v ∨ v = 0x7FF0000000000000#64 ∨ v = 0xFFF0000000000000#64 := by
  have he : biasedExponent v = 2047 := not_not.1 h
  by_cases hf : fractionField v = 0
  · refine .inr ?_
    unfold biasedExponent at he
    unfold fractionField at hf
    bv_omega
  · exact .inl ⟨he, hf⟩

/-- A pattern between two finite ones is finite. -/
theorem isFinite_of_between {v lo hi : F64} (hlo : IsFinite lo) (hhi : IsFinite hi) (hge : fge v lo = true)
    (hle : fle v hi = true) : IsFinite v := by
  by_contra hv
  rcases isNaN_or_infinity_of_not_isFinite hv with hnan | rfl | rfl
  · rw [fle_of_isNaN (.inl hnan)] at hle
    exact Bool.false_ne_true hle
  · rw [fle_of_orderKey orderKey_posInfinity (orderKey_of_isFinite hhi)] at hle
    exact hle.not_gt (abs_lt.1 (abs_unitsOf_lt hhi)).2
  · rw [fge, fle_of_orderKey (orderKey_of_isFinite hlo) orderKey_negInfinity] at hge
    exact hge.not_gt (abs_lt.1 (abs_unitsOf_lt hlo)).1

/-! ## The two axes of the domain -/

/-- The bounds of an axis stand for `-half` and `half`, and their difference is not rounded (R21, R22). -/
structure IsAxis (dmin dmax : F64) (half : ℚ) : Prop where
  min_finite : IsFinite dmin
  max_finite : IsFinite dmax
  span_finite : IsFinite (fsub dmax dmin)
  min_value : f64Value dmin = -half
  max_value : f64Value dmax = half
  span_value : f64Value (fsub dmax dmin) = 2 * half
  half_pos : 0 < half
  half_le : half ≤ 180

theorem isAxis_of_units {dmin dmax : F64} {half : ℚ} (n j : ℕ) (hj : j ≤ 1074) (hhalf : half = n / 2 ^ j)
    (hmin : viewOf dmin = .finite true (n * 2 ^ (1074 - j))) (hmax : viewOf dmax = .finite false (n * 2 ^ (1074 - j)))
    (hspan : viewOf (fsub dmax dmin) = .finite false (2 * n * 2 ^ (1074 - j))) (hpos : 0 < half) (hle : half ≤ 180) :
    IsAxis dmin dmax half where
  min_finite := isFinite_of_viewOf hmin
  max_finite := isFinite_of_viewOf hmax
  span_finite := isFinite_of_viewOf hspan
  min_value := by rw [f64Value_of_units hj hmin, hhalf, signedUnits, if_pos rfl]; push_cast; ring
  max_value := by rw [f64Value_of_units hj hmax, hhalf, signedUnits, if_neg Bool.false_ne_true]; push_cast; ring
  span_value := by rw [f64Value_of_units hj hspan, hhalf, signedUnits, if_neg Bool.false_ne_true]; push_cast; ring
  half_pos := hpos
  half_le := hle

/-- `LAT_MAX` is 23378676262271 in units of `2^-38` (R21). -/
theorem isAxis_latitude : IsAxis Config.latMin Config.latMax (23378676262271 / 2 ^ 38) :=
  isAxis_of_units 23378676262271 38 (by omega) (by norm_num) (by decide +kernel) (by decide +kernel)
    (by decide +kernel) (by norm_num) (by norm_num)

theorem isAxis_longitude : IsAxis Config.lonMin Config.lonMax 180 :=
  isAxis_of_units 180 0 (by omega) (by norm_num) (by decide +kernel) (by decide +kernel) (by decide +kernel)
    (by norm_num) le_rfl

/-- A coordinate of an axis: a finite pattern whose value is within the bounds. -/
def OnAxis (half : ℚ) (v : F64) : Prop := IsFinite v ∧ -half ≤ f64Value v ∧ f64Value v ≤ half

theorem IsAxis.onAxis {dmin dmax v : F64} {half : ℚ} (h : IsAxis dmin dmax half) (hge : fge v dmin = true)
    (hle : fle v dmax = true) : OnAxis half v := by
  have hv := isFinite_of_between h.min_finite h.max_finite hge hle
  have hlo := (fle_iff_f64Value h.min_finite hv).1 hge
  have hhi := (fle_iff_f64Value hv h.max_finite).1 hle
  exact ⟨hv, h.min_value ▸ hlo, h.max_value ▸ hhi⟩

/-- The domain of R93, by the values of the two coordinates. -/
theorem onAxis_of_inDomain {lon lat : F64} (h : InDomain hardwiredK lon lat) :
    OnAxis 180 lon ∧ OnAxis (23378676262271 / 2 ^ 38) lat := by
  obtain ⟨hlonGe, hlonLe, hlatGe, hlatLe⟩ := h
  exact ⟨isAxis_longitude.onAxis hlonGe hlonLe, isAxis_latitude.onAxis hlatGe hlatLe⟩

/-! ## The quantizer on each side of its tests -/

theorem quantize_of_illegalStep (k : ConstRegs) (lon lat : F64) {step : Step} (hs : ¬ LegalStep step) :
    quantize k lon lat step = .error .invalidStep := by
  refine guarded_error _ ?_
  rw [newCodeStepFailure_of_illegal hs, firstFailure_some]

theorem quantize_of_outside {k : ConstRegs} {lon lat : F64} {step : Step} (hs : LegalStep step)
    (hk : domainOk k = true) (hc : ¬ InDomain k lon lat) :
    quantize k lon lat step = .error .coordinateOutOfDomain := by
  refine guarded_error _ ?_
  rw [newCodeStepFailure_of_legal hs, domainFailure_of_ok hk, coordFailure_of_outside hc]
  rfl

theorem coordOk_congr {k : ConstRegs} {lon lon' lat lat' : F64} (hlon : orderKey lon = orderKey lon')
    (hlat : orderKey lat = orderKey lat') : coordOk k lon lat = coordOk k lon' lat' := by
  have hle : ∀ {v v' : F64}, orderKey v = orderKey v' → ∀ c, fle v c = fle v' c := fun h c => by rw [fle, fle, h]
  have hge : ∀ {v v' : F64}, orderKey v = orderKey v' → ∀ c, fge v c = fge v' c := fun h c => by
    rw [fge, fge, fle, fle, h]
  rw [coordOk, coordOk, hge hlon, hle hlon, hge hlat, hle hlat]

/-- The quantizer reads a coordinate by comparisons and by one subtraction only. -/
theorem quantize_congr {k : ConstRegs} {lon lon' lat lat' : F64} (step : Step)
    (hlon : orderKey lon = orderKey lon' ∧ fsub lon k.lonMin = fsub lon' k.lonMin)
    (hlat : orderKey lat = orderKey lat' ∧ fsub lat k.latMin = fsub lat' k.latMin) :
    quantize k lon lat step = quantize k lon' lat' step := by
  obtain ⟨hlonKey, hlonSub⟩ := hlon
  obtain ⟨hlatKey, hlatSub⟩ := hlat
  simp only [quantize, coordFailure, coordOk_congr hlonKey hlatKey, quantizeAxis, scaled, offset, hlonSub, hlatSub]

/-- `-0.0` is treated as `0.0` (R93). -/
theorem negZero_reads_as_zero :
    (orderKey 0x8000000000000000#64 = orderKey 0#64 ∧
      fsub 0x8000000000000000#64 hardwiredK.lonMin = fsub 0#64 hardwiredK.lonMin) ∧
    (orderKey 0x8000000000000000#64 = orderKey 0#64 ∧
      fsub 0x8000000000000000#64 hardwiredK.latMin = fsub 0#64 hardwiredK.latMin) := by
  decide +kernel

/-! ## QUANT and ENCODE by what the quantizer gives -/

section
variable {i : Instr} {k : ConstRegs} {q q' : Request}

theorem commandResponse_of_quantize_error {e : Failure} (hi : i = .quant ∨ i = .encode)
    (h : quantize k q.a q.b q.s = .error e) : commandResponse i k q = failureResponse (failureCode e) := by
  rw [← raiseFailure_eq]
  rcases hi with rfl | rfl
  · simp only [commandResponse, quantResponse, operandLon, operandLat, operandStep, h, respondWith_error]
  · simp only [commandResponse, encodeResponse, operandLon, operandLat, operandStep, h, respondWith_error]

theorem status_of_quantize_ok {lanes : Lanes} (hi : i = .quant ∨ i = .encode)
    (h : quantize k q.a q.b q.s = .ok lanes) : (commandResponse i k q).status = 0 := by
  rcases hi with rfl | rfl
  · simp only [commandResponse, quantResponse, operandLon, operandLat, operandStep, h, respondWith_ok]; rfl
  · simp only [commandResponse, encodeResponse, operandLon, operandLat, operandStep, h, respondWith_ok]; rfl

theorem commandResponse_congr_of_quantize (hi : i = .quant ∨ i = .encode) (hs : q.s = q'.s)
    (h : quantize k q.a q.b q'.s = quantize k q'.a q'.b q'.s) : commandResponse i k q = commandResponse i k q' := by
  rcases hi with rfl | rfl
  · simp only [commandResponse, quantResponse, operandLon, operandLat, operandStep, h, hs]
  · simp only [commandResponse, encodeResponse, operandLon, operandLat, operandStep, h, hs]

theorem commandResponse_of_illegalStep (hi : i = .quant ∨ i = .encode) (hs : ¬ LegalStep q.s) :
    commandResponse i k q = failureResponse 1 :=
  commandResponse_of_quantize_error hi (quantize_of_illegalStep k q.a q.b hs)

theorem commandResponse_of_outside (hi : i = .quant ∨ i = .encode) (hs : LegalStep q.s)
    (hc : ¬ InDomain hardwiredK q.a q.b) : commandResponse i hardwiredK q = failureResponse 3 :=
  commandResponse_of_quantize_error hi (quantize_of_outside hs domainOk_hardwired hc)

end

end Sys2Proof.Machine

open Sys2Proof.Machine in
/-- Settles O25: outside the domain the quantizer's test fails; inside, both coordinates are finite; the two zeros have one
order key and one difference from each minimum. -/
theorem coordinatesAreTested : Obligations.CoordinatesAreTested := by
  intro i q hi hs
  refine ⟨commandResponse_of_outside hi hs, fun hc => ?_, fun hfin => ?_, ?_, ?_⟩
  · exact status_of_quantize_ok hi (quantize_of_inDomain hs domainOk_hardwired hc)
  · refine commandResponse_of_outside hi hs fun hc => ?_
    obtain ⟨⟨hlon, -⟩, ⟨hlat, -⟩⟩ := onAxis_of_inDomain hc
    exact hfin.elim (· hlon) (· hlat)
  · exact commandResponse_congr_of_quantize hi rfl (quantize_congr q.s negZero_reads_as_zero.1 ⟨rfl, rfl⟩)
  · exact commandResponse_congr_of_quantize hi rfl (quantize_congr q.s ⟨rfl, rfl⟩ negZero_reads_as_zero.2)

open Sys2Proof.Machine in
/-- Settles O41: the swapped pair's latitude is -86.1078998, below `LAT_MIN`. -/
theorem swappedCallIsRejected : Obligations.SwappedCallIsRejected := by
  intro s p hk hp ha hb hs
  have hlegal : LegalStep p.req.s := by rw [hs]; exact ⟨by decide, by decide⟩
  have hout : ¬ InDomain hardwiredK p.req.a p.req.b := by rw [ha, hb]; unfold InDomain; decide +kernel
  have h := exec_answeredWith .encode hp
  rwa [hk, commandResponse_of_outside (.inr rfl) hlegal hout] at h
end

section
/-! The quantizer on one axis (R94 to R98): the difference and the quotient are rounded within their bounds, the scaling is
exact, and the floor is the lane. -/

namespace Sys2Proof.Machine

/-! ## The lane of a scaled offset -/

/-- The lane of a finite value is the floor of its exact value, modulo `2^32` (R96). -/
theorem floorLane_toNat {v : F64} (h : IsFinite v) : ((floorLane v).toNat : ℤ) = ⌊f64Value v⌋ % 2 ^ 32 := by
  have hfloor : ⌊f64Value v⌋ = unitsOf v / (unitsPerOne : ℤ) := by
    rw [f64Value_eq_unitsOf h, ← unitsPerOne_cast, Rat.floor_intCast_div_natCast]
  simp only [hfloor, floorLane, viewOf_of_isFinite h, BitVec.toNat_ofInt]
  exact Int.toNat_of_nonneg (Int.emod_nonneg _ (by decide))

variable {o : F64} {s : ℕ}

/-- An offset in the unit interval (R98 (a)). -/
def IsOffset (o : F64) : Prop := IsFinite o ∧ 0 ≤ f64Value o ∧ f64Value o ≤ 1

/-- Scaling an offset rounds nothing (R95). -/
theorem scaled_offset (ho : IsOffset o) (hs : s ≤ 32) :
    IsFinite (fmul o (pow2 s)) ∧ f64Value (fmul o (pow2 s)) = f64Value o * 2 ^ s := by
  obtain ⟨hfin, h0, h1⟩ := ho
  have habs : |f64Value o| ≤ 1 := abs_le.2 ⟨by linarith, h1⟩
  have hpow : (2 : ℚ) ^ s ≤ 2 ^ 64 := pow_le_pow_right₀ one_le_two (by omega)
  have hle : |f64Value o * 2 ^ s| ≤ 2 ^ 64 := by
    rw [abs_mul, abs_of_pos (by positivity : (0 : ℚ) < 2 ^ s)]
    exact (mul_le_of_le_one_left (by positivity) habs).trans hpow
  have hnear := nearestEven_fmul hfin (isFinite_of_viewOf (viewOf_pow2 hs))
  rw [f64Value_pow2 hs] at hnear
  have hnear := hnear (abs_le_largestFinite hle)
  exact ⟨hnear.1, hnear.value_eq (isF64Value_mul_two_pow hfin habs hs)⟩

theorem floor_scaled_nonneg (ho : IsOffset o) : 0 ≤ ⌊f64Value o * 2 ^ s⌋ := by
  obtain ⟨-, h0, -⟩ := ho
  exact Int.floor_nonneg.2 (by positivity)

theorem floor_scaled_le (ho : IsOffset o) : ⌊f64Value o * 2 ^ s⌋ ≤ 2 ^ s := by
  obtain ⟨-, -, h1⟩ := ho
  have hle : f64Value o * 2 ^ s ≤ 2 ^ s := mul_le_of_le_one_left (by positivity) h1
  exact_mod_cast (Int.floor_le _).trans hle

theorem floor_scaled_lt_iff : ⌊f64Value o * 2 ^ s⌋ < 2 ^ s ↔ f64Value o < 1 := by
  rw [Int.floor_lt]
  push_cast
  exact mul_lt_iff_lt_one_left (by positivity)

/-- Only the offset 1 reaches the top (R98 (c)). -/
theorem floor_scaled_eq_iff (ho : IsOffset o) : ⌊f64Value o * 2 ^ s⌋ = 2 ^ s ↔ f64Value o = 1 := by
  have hlt := floor_scaled_lt_iff (o := o) (s := s)
  have hle := floor_scaled_le (s := s) ho
  obtain ⟨-, -, h1⟩ := ho
  rw [← not_iff_not, ← Ne, ← hle.lt_iff_ne, hlt, h1.lt_iff_ne]

/-- The lane of an offset below 1 is the floor itself (R98 (d)). -/
theorem floorLane_scaled_of_lt_one (ho : IsOffset o) (hs : s ≤ 32) (h : f64Value o < 1) :
    ((floorLane (fmul o (pow2 s))).toNat : ℤ) = ⌊f64Value o * 2 ^ s⌋ ∧
      (floorLane (fmul o (pow2 s))).toNat < 2 ^ s := by
  obtain ⟨hfin, hval⟩ := scaled_offset ho hs
  have hlt : ⌊f64Value o * 2 ^ s⌋ < 2 ^ s := floor_scaled_lt_iff.2 h
  have hpow : (2 : ℤ) ^ s ≤ 2 ^ 32 := pow_le_pow_right₀ one_le_two hs
  have hlane : ((floorLane (fmul o (pow2 s))).toNat : ℤ) = ⌊f64Value o * 2 ^ s⌋ := by
    rw [floorLane_toNat hfin, hval, Int.emod_eq_of_lt (floor_scaled_nonneg ho) (hlt.trans_le hpow)]
  exact ⟨hlane, by rw [← hlane] at hlt; exact_mod_cast hlt⟩

/-! ## The offset of a coordinate -/

section
variable {dmin dmax v : F64} {half : ℚ}

/-- The difference lies between 0 and the span, and is the exact one rounded once (R98 (a)). -/
theorem IsAxis.fsub_spec (h : IsAxis dmin dmax half) (hv : OnAxis half v) :
    NearestEven (f64Value v + half) (fsub v dmin) ∧ 0 ≤ f64Value (fsub v dmin) ∧
      f64Value (fsub v dmin) ≤ 2 * half := by
  obtain ⟨hfin, hlo, hhi⟩ := hv
  have hhalf := h.half_le
  have hle : |f64Value v + half| ≤ 2 ^ 64 := abs_le.2 ⟨by norm_num; linarith, by norm_num; linarith⟩
  have hnear := nearestEven_fsub hfin h.min_finite
  rw [h.min_value, sub_neg_eq_add] at hnear
  have hnear := hnear (abs_le_largestFinite hle)
  have hspan : IsF64Value (2 * half) := h.span_value ▸ isF64Value_f64Value h.span_finite
  exact ⟨hnear, hnear.le_value isF64Value_zero (by linarith), hnear.value_le hspan (by linarith)⟩

/-- The offset is the quotient of the rounded difference by the span, rounded once, and stays in the unit interval. -/
theorem IsAxis.offset_spec (h : IsAxis dmin dmax half) (hv : OnAxis half v) :
    NearestEven (f64Value (fsub v dmin) / (2 * half)) (offset v dmin (fsub dmax dmin)) ∧
      IsOffset (offset v dmin (fsub dmax dmin)) := by
  obtain ⟨⟨hfin, -⟩, hlo, hhi⟩ := h.fsub_spec hv
  have hspan : 0 < 2 * half := by linarith [h.half_pos]
  have h0 : 0 ≤ f64Value (fsub v dmin) / (2 * half) := div_nonneg hlo hspan.le
  have h1 : f64Value (fsub v dmin) / (2 * half) ≤ 1 := (div_le_one hspan).2 hhi
  have hle : |f64Value (fsub v dmin) / (2 * half)| ≤ 2 ^ 64 := abs_le.2 ⟨by linarith, by linarith⟩
  have hnear := nearestEven_fdiv hfin h.span_finite
  rw [h.span_value] at hnear
  have hnear := hnear hspan.ne' (abs_le_largestFinite hle)
  exact ⟨hnear, hnear.1, hnear.le_value isF64Value_zero h0, hnear.value_le isF64Value_one h1⟩

end

/-- Both offsets of a pair in the domain are in the unit interval. -/
theorem isOffset_of_inDomain {lon lat : F64} (h : InDomain hardwiredK lon lat) :
    IsOffset (offset lon Config.lonMin (lonSpan hardwiredK)) ∧
      IsOffset (offset lat Config.latMin (latSpan hardwiredK)) := by
  obtain ⟨hlon, hlat⟩ := onAxis_of_inDomain h
  exact ⟨(isAxis_longitude.offset_spec hlon).2, (isAxis_latitude.offset_spec hlat).2⟩

/-! ## The responses of QUANT and ENCODE -/

/-- The lanes of a pair, with the hardwired domain (R96). -/
def hardwiredLanes (q : Request) : Lanes where
  even := quantizeAxis q.b Config.latMin (latSpan hardwiredK) q.s
  odd := quantizeAxis q.a Config.lonMin (lonSpan hardwiredK) q.s

theorem quantize_hardwired {q : Request} (hs : LegalStep q.s) (hc : InDomain hardwiredK q.a q.b) :
    quantize hardwiredK (operandLon q) (operandLat q) (operandStep q) = .ok (hardwiredLanes q) :=
  quantize_of_inDomain hs domainOk_hardwired hc

theorem quantResponse_of_inDomain {q : Request} (hs : LegalStep q.s) (hc : InDomain hardwiredK q.a q.b) :
    commandResponse .quant hardwiredK q =
      { failureResponse 0 with
        r0 := laneSlot (hardwiredLanes q).even, r1 := laneSlot (hardwiredLanes q).odd, rs := q.s } := by
  rw [commandResponse, quantResponse, quantize_hardwired hs hc, respondWith_ok]
  rfl

theorem encodeResponse_eq_of_inDomain {q : Request} (hs : LegalStep q.s) (hc : InDomain hardwiredK q.a q.b) :
    commandResponse .encode hardwiredK q =
      { failureResponse 0 with
        r0 := interleave (hardwiredLanes q).even (hardwiredLanes q).odd, rs := q.s } := by
  rw [commandResponse, encodeResponse, quantize_hardwired hs hc, respondWith_ok]
  rfl

@[simp] theorem laneSlot_toNat (lane : Lane) : (laneSlot lane).toNat = lane.toNat := by
  rw [laneSlot, BitVec.toNat_setWidth_of_le (by omega)]

/-- QUANT and ENCODE fail on an illegal step, then on a pair outside the domain (R100, R101, R160). -/
theorem exec_quantizer_fails {i : Instr} {s : State} {p : InService} (hi : i = .quant ∨ i = .encode)
    (hk : s.k = hardwiredK) (hp : s.inService = some p) :
    (¬ LegalStep p.req.s → ∃ t, exec i s = .next t ∧ AnsweredWith s p (failureResponse 1) t) ∧
    (LegalStep p.req.s → ¬ InDomain hardwiredK p.req.a p.req.b →
      ∃ t, exec i s = .next t ∧ AnsweredWith s p (failureResponse 3) t) := by
  have h := exec_answeredWith i hp
  refine ⟨fun hs => ?_, fun hs hc => ?_⟩
  · rwa [commandResponse_of_illegalStep hi hs] at h
  · rwa [hk, commandResponse_of_outside hi hs hc] at h

end Sys2Proof.Machine

open Sys2Proof Sys2Proof.Machine in
/-- Settles O36: the scaled offsets are finite, so each lane is the floor of an exact value. -/
theorem quantComputesTheLanes : Obligations.QuantComputesTheLanes := by
  refine ⟨by decide, fun s p hk hp => ⟨fun hs hc => ?_, exec_quantizer_fails (.inl rfl) hk hp⟩⟩
  obtain ⟨t, hnext, hanswered⟩ := exec_answeredWith .quant hp
  obtain ⟨hlon, hlat⟩ := isOffset_of_inDomain hc
  rw [hk, quantResponse_of_inDomain hs hc] at hanswered
  refine ⟨_, _, t, hnext, hanswered, ?_, ?_⟩ <;> rw [hk, laneSlot_toNat]
  · exact floorLane_toNat (scaled_offset hlat hs.2).1
  · exact floorLane_toNat (scaled_offset hlon hs.2).1

open Sys2Proof Sys2Proof.Machine in
/-- Settles O37: ENCODE interleaves the lanes that QUANT returns in `R0` and `R1`. -/
theorem encodeInterleavesTheLanes : Obligations.EncodeInterleavesTheLanes := by
  refine ⟨by decide, fun s p hk hp => ⟨fun hs hc => ?_, exec_quantizer_fails (.inr rfl) hk hp⟩⟩
  obtain ⟨t, hnext, hanswered⟩ := exec_answeredWith .encode hp
  rw [hk, encodeResponse_eq_of_inDomain hs hc] at hanswered
  refine ⟨_, t, hnext, hanswered, fun i _ => ?_⟩
  rw [hk, quantResponse_of_inDomain hs hc, getLsbD_laneSlot, getLsbD_laneSlot]
  exact ⟨getLsbD_interleave_even _ _ i, getLsbD_interleave_odd _ _ i⟩

open Sys2Proof.Machine in
/-- Settles O38: rounding keeps the bounds 0 and 1, scaling is exact, and lanes below `2^step` make a canonical code. -/
theorem offsetsStayInTheUnitInterval : Obligations.OffsetsStayInTheUnitInterval := by
  intro lon lat step hs hc latOffset lonOffset
  obtain ⟨hlon, hlat⟩ : IsOffset lonOffset ∧ IsOffset latOffset := isOffset_of_inDomain hc
  have hscale : ∀ {o : Sys2Proof.F64}, IsOffset o → ⌊f64Value (fmul o (pow2 step.toNat))⌋ ≤ 2 ^ step.toNat ∧
      (⌊f64Value (fmul o (pow2 step.toNat))⌋ = 2 ^ step.toNat ↔ f64Value o = 1) := fun ho => by
    rw [(scaled_offset ho hs.2).2]
    exact ⟨floor_scaled_le ho, floor_scaled_eq_iff ho⟩
  refine ⟨hlat, hlon, hscale hlat, hscale hlon, fun hlat1 hlon1 cmd => ⟨hs, ?_⟩⟩
  rw [encodeResponse_eq_of_inDomain (q := { cmd := cmd, a := lon, b := lat, s := step }) hs hc,
    toNat_lt_four_pow_iff, evenLane_interleave, oddLane_interleave]
  exact ⟨(floorLane_scaled_of_lt_one hlat hs.2 hlat1).2, (floorLane_scaled_of_lt_one hlon hs.2 hlon1).2⟩
end

section
/-! The top of each axis (R99): the maximum and the pattern below it give the offset 1, and from the second pattern below on
the difference is short of the span by one spacing of the values, so the offset stays below 1. -/

namespace Sys2Proof.Machine

/-! ## The order of the patterns -/

/-- The units of a pattern without its sign, as a function of the number its fields make. -/
def unitsOfFields (n : ℕ) : ℕ := magnitudeOf (n / 2 ^ 52) (n % 2 ^ 52)

/-- The next pattern stands for a larger value, across a change of exponent too. -/
theorem unitsOfFields_strictMono : StrictMono unitsOfFields := by
  refine strictMono_nat_of_lt_succ fun n => ?_
  unfold unitsOfFields magnitudeOf
  have hmod : n % 2 ^ 52 < 2 ^ 52 := Nat.mod_lt _ (by decide)
  by_cases hcarry : n % 2 ^ 52 + 1 = 2 ^ 52
  · have hdiv : (n + 1) / 2 ^ 52 = n / 2 ^ 52 + 1 := by omega
    have hfrac : (n + 1) % 2 ^ 52 = 0 := by omega
    rw [hdiv, hfrac, if_neg (Nat.succ_ne_zero _), Nat.add_sub_cancel]
    cases n / 2 ^ 52 with
    | zero => rw [if_pos rfl]; omega
    | succ e =>
      rw [if_neg (Nat.succ_ne_zero _), Nat.add_sub_cancel, pow_succ' 2 e, ← mul_assoc]
      exact Nat.mul_lt_mul_of_pos_right (by omega) (by positivity)
  · have hdiv : (n + 1) / 2 ^ 52 = n / 2 ^ 52 := by omega
    have hfrac : (n + 1) % 2 ^ 52 = n % 2 ^ 52 + 1 := by omega
    rw [hdiv, hfrac]
    split
    · omega
    · exact Nat.mul_lt_mul_of_pos_right (by omega) (by positivity)

theorem unitsOf_eq_of_nonneg {v : F64} (h : v.toNat < 2 ^ 63) : unitsOf v = unitsOfFields v.toNat := by
  have he : biasedExponent v = v.toNat / 2 ^ 52 := by unfold biasedExponent; omega
  rw [unitsOf, unitsOfFields, he, fractionField, signedUnits, if_neg (by simpa using h)]

theorem unitsOf_nonpos_of_neg {v : F64} (h : 2 ^ 63 ≤ v.toNat) : unitsOf v ≤ 0 := by
  rw [unitsOf, signedUnits, if_pos (by simpa using h)]
  omega

/-- A value below that of a positive pattern, from another pattern, is at most that of the pattern before it. -/
theorem f64Value_le_pred {v c c' : F64} (hv : IsFinite v) (hc : IsFinite c) (hc' : IsFinite c')
    (hpred : c'.toNat + 1 = c.toNat) (hpos : c.toNat < 2 ^ 63) (hle : f64Value v ≤ f64Value c) (hne : v ≠ c) :
    f64Value v ≤ f64Value c' := by
  rw [f64Value_le_iff hv hc, unitsOf_eq_of_nonneg hpos] at hle
  rw [f64Value_le_iff hv hc', unitsOf_eq_of_nonneg (v := c') (by omega)]
  rcases Nat.lt_or_ge v.toNat (2 ^ 63) with hsign | hsign
  · rw [unitsOf_eq_of_nonneg hsign, Nat.cast_le, unitsOfFields_strictMono.le_iff_le] at hle
    rw [unitsOf_eq_of_nonneg hsign, Nat.cast_le, unitsOfFields_strictMono.le_iff_le]
    have : v.toNat ≠ c.toNat := fun h => hne (BitVec.eq_of_toNat_eq h)
    omega
  · exact (unitsOf_nonpos_of_neg hsign).trans (by omega)

/-! ## Offsets at and below 1 -/

variable {dmin dmax v : F64} {half : ℚ}

/-- Where the difference is the whole span, the offset is 1. -/
theorem IsAxis.offset_eq_one (h : IsAxis dmin dmax half) (hv : OnAxis half v) (hsub : fsub v dmin = fsub dmax dmin) :
    f64Value (offset v dmin (fsub dmax dmin)) = 1 := by
  obtain ⟨hnear, -⟩ := h.offset_spec hv
  have hspan : 2 * half ≠ 0 := by linarith [h.half_pos]
  rw [hsub, h.span_value, div_self hspan] at hnear
  exact hnear.value_eq isF64Value_one

/-- Where the difference is at most a value `y` short of the span by a `2^-53`th part, the offset is below 1. -/
theorem IsAxis.offset_lt_one (h : IsAxis dmin dmax half) (hv : OnAxis half v) {y : ℚ} (hy : IsF64Value y)
    (hvy : f64Value v + half ≤ y) (hshort : y ≤ (1 - 1 / 2 ^ 53) * (2 * half)) :
    f64Value (offset v dmin (fsub dmax dmin)) < 1 := by
  obtain ⟨hdiff, -⟩ := h.fsub_spec hv
  obtain ⟨hnear, -⟩ := h.offset_spec hv
  have hspan : 0 < 2 * half := by linarith [h.half_pos]
  have hbelow : IsF64Value (1 - 1 / 2 ^ 53) := by
    have := isF64Value_div_two_pow (k := 2 ^ 53 - 1) (j := 53) (by norm_num) (by omega)
    norm_num at this ⊢
    exact this
  have hquot : f64Value (fsub v dmin) / (2 * half) ≤ 1 - 1 / 2 ^ 53 :=
    (div_le_iff₀ hspan).2 ((hdiff.value_le hy hvy).trans hshort)
  exact (hnear.value_le hbelow hquot).trans_lt (by norm_num)

/-- Exactly two coordinates of an axis have the offset 1: the difference of the pattern `below` the maximum rounds up to the
span; from the `next` one on it is at most `2 * n - 1` in the units in which the span is `2 * n`. -/
theorem IsAxis.offset_top (h : IsAxis dmin dmax half) {below next : F64} (n j : ℕ) (hj : j ≤ 1074)
    (hhalf : half = n / 2 ^ j) (hn : 2 * n ≤ 2 ^ 53) (hpos : dmax.toNat < 2 ^ 63)
    (hpred : below.toNat + 1 = dmax.toNat) (hpred' : next.toNat + 1 = below.toNat) (hbelow : IsFinite below)
    (hsub : fsub below dmin = fsub dmax dmin) (hnext : viewOf next = .finite false ((n - 1) * 2 ^ (1074 - j)))
    (hv : OnAxis half v) :
    if v = dmax ∨ v = below then f64Value (offset v dmin (fsub dmax dmin)) = 1
    else f64Value (offset v dmin (fsub dmax dmin)) < 1 := by
  split
  next htop =>
    rcases htop with rfl | rfl
    · exact h.offset_eq_one hv rfl
    · exact h.offset_eq_one hv hsub
  next hrest =>
    obtain ⟨hne, hne'⟩ := not_or.1 hrest
    have ⟨hfin, _, hle⟩ := hv
    rw [← h.max_value] at hle
    have hle' := f64Value_le_pred hfin h.max_finite hbelow hpred hpos hle hne
    have hle'' := f64Value_le_pred hfin hbelow (isFinite_of_viewOf hnext) hpred' (by omega) hle' hne'
    have hp : (0 : ℚ) < 2 ^ j := by positivity
    have hn0 : 0 < n := by
      have hhalf0 := h.half_pos
      rw [hhalf, div_pos_iff_of_pos_right hp] at hhalf0
      exact_mod_cast hhalf0
    have hvalue : f64Value next + half = (2 * n - 1 : ℤ) / 2 ^ j := by
      rw [f64Value_of_units hj hnext, hhalf, signedUnits, if_neg Bool.false_ne_true, Nat.cast_sub hn0]
      push_cast
      ring
    have hy : IsF64Value (f64Value next + half) := by
      rw [hvalue]
      exact isF64Value_div_two_pow (k := 2 * n - 1) (abs_le.2 (by omega)) hj
    have hshort : f64Value next + half ≤ (1 - 1 / 2 ^ 53) * (2 * half) := by
      have hn' : (2 * n : ℚ) ≤ 2 ^ 53 := by exact_mod_cast hn
      rw [hvalue, hhalf, ← mul_div_assoc, ← mul_div_assoc, div_le_div_iff_of_pos_right hp]
      push_cast
      linarith
    exact h.offset_lt_one hv hy (by linarith) hshort

theorem latitude_offset_top (hv : OnAxis (23378676262271 / 2 ^ 38) v) :
    if v = Config.latMax ∨ v = 0x40554345B1A57EFF#64 then
      f64Value (offset v Config.latMin (latSpan hardwiredK)) = 1
    else f64Value (offset v Config.latMin (latSpan hardwiredK)) < 1 :=
  isAxis_latitude.offset_top (next := 0x40554345B1A57EFE#64) (23378676262271 * 2 ^ 7) 45 (by omega) (by norm_num)
    (by omega) (by decide) (by decide) (by decide) (by unfold IsFinite; decide) (by decide +kernel) (by decide +kernel) hv

theorem longitude_offset_top (hv : OnAxis 180 v) :
    if v = Config.lonMax ∨ v = 0x40667FFFFFFFFFFF#64 then
      f64Value (offset v Config.lonMin (lonSpan hardwiredK)) = 1
    else f64Value (offset v Config.lonMin (lonSpan hardwiredK)) < 1 :=
  isAxis_longitude.offset_top (next := 0x40667FFFFFFFFFFE#64) (180 * 2 ^ 44) 44 (by omega) (by norm_num)
    (by omega) (by decide) (by decide) (by decide) (by unfold IsFinite; decide) (by decide +kernel) (by decide +kernel) hv

/-! ## The lanes of the top -/

/-- The lane of the offset 1 is `2^step`, which step 32 truncates to 0 (R99). -/
theorem floorLane_scaled_of_eq_one {o : F64} {s : ℕ} (ho : IsOffset o) (hs : s ≤ 32) (h : f64Value o = 1) :
    (floorLane (fmul o (pow2 s))).toNat = if s < 32 then 2 ^ s else 0 := by
  obtain ⟨hfin, hval⟩ := scaled_offset ho hs
  have hlane := floorLane_toNat hfin
  rw [hval, (floor_scaled_eq_iff ho).2 h] at hlane
  have hlane : (floorLane (fmul o (pow2 s))).toNat = 2 ^ s % 2 ^ 32 := by exact_mod_cast hlane
  rw [hlane]
  split
  next hlt => exact Nat.mod_eq_of_lt (Nat.pow_lt_pow_right one_lt_two hlt)
  next hge => rw [show s = 32 by omega, Nat.mod_self]

/-- The lane on each side of the split of R99. -/
theorem lane_of_offset_split {o : F64} {s : ℕ} {c : Prop} [Decidable c] (ho : IsOffset o) (hs : s ≤ 32)
    (h : if c then f64Value o = 1 else f64Value o < 1) :
    if c then (floorLane (fmul o (pow2 s))).toNat = (if s < 32 then 2 ^ s else 0)
    else (floorLane (fmul o (pow2 s))).toNat < 2 ^ s ∧ f64Value o < 1 := by
  split at h
  next hc => rw [if_pos hc]; exact floorLane_scaled_of_eq_one ho hs h
  next hc => rw [if_neg hc]; exact ⟨(floorLane_scaled_of_lt_one ho hs h).2, h⟩

end Sys2Proof.Machine

open Sys2Proof.Machine in
/-- Settles O39: the lanes follow from the offsets, which are 1 on exactly two patterns of each axis. -/
theorem topOfTheDomain : Obligations.TopOfTheDomain := by
  intro lon lat step cmd hs hc lanes top
  obtain ⟨hlon, hlat⟩ := onAxis_of_inDomain hc
  obtain ⟨hlonOffset, hlatOffset⟩ := isOffset_of_inDomain hc
  have hlanes := quantResponse_of_inDomain (q := { cmd := cmd, a := lon, b := lat, s := step }) hs hc
  simp only [lanes, hlanes, laneSlot_toNat]
  exact ⟨lane_of_offset_split hlatOffset hs.2 (latitude_offset_top hlat),
    lane_of_offset_split hlonOffset hs.2 (longitude_offset_top hlon)⟩
end

section
/-! The known vector of the source (R102, S2): nothing here depends on a free value, so every part of it computes. -/

open Sys2Proof Sys2Proof.Machine in
/-- Settles O40 by running the model on the vector. -/
theorem knownVectorEncodes : Obligations.KnownVectorEncodes := by
  unfold Obligations.KnownVectorEncodes
  decide +kernel
end

section
/-! Decoding an encoded point (R103). The offset, times the span, is the coordinate's distance from the minimum up to two
roundings; the bounds of the cell are the lane's multiples of the cell's width up to two more on the latitude axis, and
exactly on the longitude axis. -/

namespace Sys2Proof.Machine

/-! ## The responses to the two words -/

theorem respond_of_decode (k : ConstRegs) {q : Request} {i : Instr} (hd : decode q.cmd = .ok i) :
    respond k q = commandResponse i k q := by
  simp only [respond, hd]

/-- DECODE at a legal step returns the four bounds of the code's cell (R120). -/
theorem decodeResponse_of_legal {q : Request} (hs : LegalStep q.s) :
    commandResponse .decode hardwiredK q =
      { failureResponse 0 with
        r0 := dequantizeBound (deinterleave q.a).even.toNat q.s Config.latMin (latSpan hardwiredK)
        r1 := dequantizeBound ((deinterleave q.a).even.toNat + 1) q.s Config.latMin (latSpan hardwiredK)
        r2 := dequantizeBound (deinterleave q.a).odd.toNat q.s Config.lonMin (lonSpan hardwiredK)
        r3 := dequantizeBound ((deinterleave q.a).odd.toNat + 1) q.s Config.lonMin (lonSpan hardwiredK)
        r4 := q.a
        rs := q.s } := by
  have htests : firstFailure [givenCodeStepFailure (operandCode q).step, domainFailure hardwiredK] = none := by
    rw [operandCode, operandStep, givenCodeStepFailure_of_legal hs, domainFailure_hardwired]
    rfl
  rw [commandResponse, decodeResponse, decodeCell, guarded_ok _ htests, respondWith_ok]
  rfl

/-! ## The bounds of a cell -/

/-- The lower bound of the cell of lane `n` at step `s`, without rounding (R114). -/
def cellBound (half : ℚ) (n s : ℕ) : ℚ := n / 2 ^ s * (2 * half) - half

section
variable {dmin dmax v : F64} {half : ℚ} {n : ℕ} {step : Step}

/-- A bound is the product of the exact ratio with the span, rounded, added to the minimum, rounded (R114). -/
theorem IsAxis.dequantizeBound_spec (h : IsAxis dmin dmax half) (hs : step.toNat ≤ 32) (hn : n ≤ 2 ^ step.toNat) :
    ∃ p, NearestEven (n / 2 ^ step.toNat * (2 * half)) p ∧ 0 ≤ f64Value p ∧ f64Value p ≤ 2 * half ∧
      NearestEven (-half + f64Value p) (dequantizeBound n step dmin (fsub dmax dmin)) := by
  have hhalf := h.half_le
  have hhalf0 := h.half_pos
  have hpow : 2 ^ step.toNat ≤ 2 ^ 32 := Nat.pow_le_pow_right two_pos hs
  have hn53 : n < 2 ^ 53 := by omega
  have hratio : (n : ℚ) / 2 ^ step.toNat ≤ 1 := by
    rw [div_le_one (by positivity)]; exact_mod_cast hn
  have hprod0 : 0 ≤ (n : ℚ) / 2 ^ step.toNat * (2 * half) := by positivity
  have hprod1 : (n : ℚ) / 2 ^ step.toNat * (2 * half) ≤ 2 * half := mul_le_of_le_one_left (by linarith) hratio
  have hmul := nearestEven_fmul (isFinite_of_viewOf (viewOf_ratio hn53 hs)) h.span_finite
  rw [f64Value_ratio hn53 hs, h.span_value] at hmul
  have hmul := hmul (abs_le_largestFinite (abs_le.2 ⟨by linarith, by linarith⟩))
  have hspan : IsF64Value (2 * half) := h.span_value ▸ isF64Value_f64Value h.span_finite
  have hp0 := hmul.le_value isF64Value_zero hprod0
  have hp1 := hmul.value_le hspan hprod1
  have hadd := nearestEven_fadd h.min_finite hmul.1
  rw [h.min_value] at hadd
  exact ⟨_, hmul, hp0, hp1, hadd (abs_le_largestFinite (abs_le.2 ⟨by linarith, by linarith⟩))⟩

/-- The offset times the span is the distance from the minimum, up to the roundings of the difference and of the quotient. -/
theorem IsAxis.offset_near (h : IsAxis dmin dmax half) (hv : OnAxis half v) (j : ℕ) (hj : j ≤ 1074)
    (hspan : 2 * half * 2 ^ j ≤ 2 ^ 53) :
    |f64Value (offset v dmin (fsub dmax dmin)) * (2 * half) - (f64Value v + half)| ≤
      1 / 2 ^ (j + 1) + 2 * half / 2 ^ 54 := by
  obtain ⟨hdiff, hlo, hhi⟩ := h.fsub_spec hv
  obtain ⟨hquot, -⟩ := h.offset_spec hv
  obtain ⟨-, hvlo, hvhi⟩ := hv
  have hpos : 0 < 2 * half := by linarith [h.half_pos]
  have hsub : |f64Value (fsub v dmin) - (f64Value v + half)| ≤ 1 / 2 ^ (j + 1) := by
    refine hdiff.abs_value_sub_le j hj ?_
    rw [abs_of_nonneg (by linarith)]
    exact (mul_le_mul_of_nonneg_right (by linarith) (by positivity)).trans hspan
  have hdiv := hquot.abs_value_sub_le 53 (by omega) (by
    rw [abs_of_nonneg (div_nonneg hlo hpos.le)]
    exact mul_le_of_le_one_left (by positivity) ((div_le_one hpos).2 hhi))
  have hscaled : |f64Value (offset v dmin (fsub dmax dmin)) * (2 * half) - f64Value (fsub v dmin)| ≤
      2 * half / 2 ^ 54 := by
    calc _ = |f64Value (offset v dmin (fsub dmax dmin)) - f64Value (fsub v dmin) / (2 * half)| * (2 * half) := by
          rw [← abs_of_pos hpos, ← abs_mul, abs_of_pos hpos, sub_mul, div_mul_cancel₀ _ hpos.ne']
      _ ≤ 1 / 2 ^ 54 * (2 * half) := by gcongr
      _ = 2 * half / 2 ^ 54 := by ring
  calc _ ≤ _ := abs_sub_le _ (f64Value (fsub v dmin)) _
    _ ≤ _ := by linarith

/-- A coordinate lies in the cell of its lane up to the error of its offset and that of the bounds. -/
theorem IsAxis.cell_contains (h : IsAxis dmin dmax half) (hv : OnAxis half v) (hs : step.toNat ≤ 32) {ε δ : ℚ}
    (hlt : f64Value (offset v dmin (fsub dmax dmin)) < 1)
    (hoffset : |f64Value (offset v dmin (fsub dmax dmin)) * (2 * half) - (f64Value v + half)| ≤ ε)
    (hbound : ∀ m ≤ 2 ^ step.toNat,
      |f64Value (dequantizeBound m step dmin (fsub dmax dmin)) - cellBound half m step.toNat| ≤ δ)
    (hsum : ε + δ ≤ 1 / 2 ^ 44) :
    f64Value (dequantizeBound (quantizeAxis v dmin (fsub dmax dmin) step).toNat step dmin (fsub dmax dmin)) -
        1 / 2 ^ 44 ≤ f64Value v ∧
      f64Value v < f64Value (dequantizeBound ((quantizeAxis v dmin (fsub dmax dmin) step).toNat + 1) step dmin
        (fsub dmax dmin)) + 1 / 2 ^ 44 := by
  obtain ⟨hlane, hlaneLt⟩ := floorLane_scaled_of_lt_one (h.offset_spec hv).2 hs hlt
  rw [← scaled, ← quantizeAxis] at hlane hlaneLt
  generalize f64Value (offset v dmin (fsub dmax dmin)) = o at *
  generalize (quantizeAxis v dmin (fsub dmax dmin) step).toNat = n at *
  have hp : (0 : ℚ) < 2 ^ step.toNat := by positivity
  have hspan : 0 < 2 * half := by linarith [h.half_pos]
  obtain ⟨hfloor, hfloor'⟩ := Int.floor_eq_iff.1 hlane.symm
  have hlow : (n : ℚ) / 2 ^ step.toNat ≤ o := (div_le_iff₀ hp).2 (by exact_mod_cast hfloor)
  have hhigh : o < ((n + 1 : ℕ) : ℚ) / 2 ^ step.toNat := (lt_div_iff₀ hp).2 (by exact_mod_cast hfloor')
  have hlow' : (n : ℚ) / 2 ^ step.toNat * (2 * half) ≤ o * (2 * half) := by gcongr
  have hhigh' : o * (2 * half) < ((n + 1 : ℕ) : ℚ) / 2 ^ step.toNat * (2 * half) := by gcongr
  obtain ⟨-, hmin⟩ := abs_le.1 (hbound n hlaneLt.le)
  obtain ⟨hmax, -⟩ := abs_le.1 (hbound (n + 1) hlaneLt)
  obtain ⟨hoffLow, hoffHigh⟩ := abs_le.1 hoffset
  unfold cellBound at hmin hmax
  exact ⟨by linarith, by linarith⟩

end

/-! ## Each axis -/

variable {v : F64} {step : Step}

theorem latitude_bound_near (hs : step.toNat ≤ 32) {n : ℕ} (hn : n ≤ 2 ^ step.toNat) :
    |f64Value (dequantizeBound n step Config.latMin (latSpan hardwiredK)) -
      cellBound (23378676262271 / 2 ^ 38) n step.toNat| ≤ 1 / 2 ^ 46 + 1 / 2 ^ 47 := by
  obtain ⟨p, hmul, hp0, hp1, hadd⟩ := isAxis_latitude.dequantizeBound_spec hs hn
  have hratio : (n : ℚ) / 2 ^ step.toNat ≤ 1 := by
    rw [div_le_one (by positivity)]; exact_mod_cast hn
  have hprod0 : 0 ≤ (n : ℚ) / 2 ^ step.toNat := by positivity
  have hmulNear := hmul.abs_value_sub_le 45 (by omega) (by
    rw [abs_of_nonneg (by positivity)]; norm_num; linarith)
  have haddNear := hadd.abs_value_sub_le 46 (by omega) (by
    rw [← le_div_iff₀ (by positivity), abs_le]; norm_num at hp1 ⊢; exact ⟨by linarith, by linarith⟩)
  have hshift : f64Value p - n / 2 ^ step.toNat * (2 * (23378676262271 / 2 ^ 38)) =
      -(23378676262271 / 2 ^ 38) + f64Value p - cellBound (23378676262271 / 2 ^ 38) n step.toNat := by
    unfold cellBound; ring
  rw [hshift] at hmulNear
  calc _ ≤ _ := abs_sub_le _ (-(23378676262271 / 2 ^ 38) + f64Value p) _
    _ ≤ 1 / 2 ^ 47 + 1 / 2 ^ 46 := add_le_add haddNear hmulNear
    _ = _ := add_comm _ _

/-- The longitude bounds round nothing: `360 n` and `360 n - 180 * 2^s` fit a significand (R118). -/
theorem longitude_bound_exact (hs : step.toNat ≤ 32) {n : ℕ} (hn : n ≤ 2 ^ step.toNat) :
    f64Value (dequantizeBound n step Config.lonMin (lonSpan hardwiredK)) = cellBound 180 n step.toNat := by
  obtain ⟨p, hmul, -, -, hadd⟩ := isAxis_longitude.dequantizeBound_spec hs hn
  have hpow : 2 ^ step.toNat ≤ 2 ^ 32 := Nat.pow_le_pow_right two_pos hs
  have hp : (2 : ℚ) ^ step.toNat ≠ 0 := by positivity
  have hprod := isF64Value_div_two_pow (k := 360 * n) (j := step.toNat) (by rw [abs_le]; omega) (by omega)
  have hsum := isF64Value_div_two_pow (k := 360 * n - 180 * (2 ^ step.toNat : ℕ)) (j := step.toNat)
    (by rw [abs_le]; omega) (by omega)
  have hpval : f64Value p = n / 2 ^ step.toNat * (2 * 180) := by
    refine hmul.value_eq ?_
    convert hprod using 1
    push_cast
    ring
  rw [hpval] at hadd
  have hexact : cellBound 180 n step.toNat = -180 + n / 2 ^ step.toNat * (2 * 180) := by unfold cellBound; ring
  rw [hexact]
  refine hadd.value_eq ?_
  convert hsum using 1
  push_cast
  field_simp
  ring

theorem latitude_contained (hv : OnAxis (23378676262271 / 2 ^ 38) v) (hs : step.toNat ≤ 32)
    (hlt : f64Value (offset v Config.latMin (latSpan hardwiredK)) < 1) :
    let lane := (quantizeAxis v Config.latMin (latSpan hardwiredK) step).toNat
    f64Value (dequantizeBound lane step Config.latMin (latSpan hardwiredK)) - 1 / 2 ^ 44 ≤ f64Value v ∧
      f64Value v < f64Value (dequantizeBound (lane + 1) step Config.latMin (latSpan hardwiredK)) + 1 / 2 ^ 44 :=
  isAxis_latitude.cell_contains hv hs hlt (isAxis_latitude.offset_near hv 45 (by omega) (by norm_num))
    (fun _ hm => latitude_bound_near hs hm) (by norm_num)

theorem longitude_contained (hv : OnAxis 180 v) (hs : step.toNat ≤ 32)
    (hlt : f64Value (offset v Config.lonMin (lonSpan hardwiredK)) < 1) :
    let lane := (quantizeAxis v Config.lonMin (lonSpan hardwiredK) step).toNat
    f64Value (dequantizeBound lane step Config.lonMin (lonSpan hardwiredK)) - 1 / 2 ^ 44 ≤ f64Value v ∧
      f64Value v < f64Value (dequantizeBound (lane + 1) step Config.lonMin (lonSpan hardwiredK)) + 1 / 2 ^ 44 := by
  have hexact : ∀ m ≤ 2 ^ step.toNat,
      |f64Value (dequantizeBound m step Config.lonMin (lonSpan hardwiredK)) - cellBound 180 m step.toNat| ≤ 0 :=
    fun m hm => by rw [longitude_bound_exact hs hm, sub_self, abs_zero]
  exact isAxis_longitude.cell_contains hv hs hlt (isAxis_longitude.offset_near hv 44 (by omega) (by norm_num)) hexact
    (by norm_num)

end Sys2Proof.Machine

open Sys2Proof Sys2Proof.Machine in
/-- Settles O48: the code's lanes are the point's, so each axis is `IsAxis.cell_contains`. -/
theorem decodeContainsTheEncodedPoint : Obligations.DecodeContainsTheEncodedPoint := by
  intro lon lat step hs hc hlatLt hlonLt code cell
  obtain ⟨hlon, hlat⟩ := onAxis_of_inDomain hc
  have hcode : code = _ := (respond_of_decode _ (show decode 5#32 = .ok .encode by decide)).trans
    (encodeResponse_eq_of_inDomain (q := { cmd := 5, a := lon, b := lat, s := step }) hs hc)
  have hcell : cell = _ := (respond_of_decode _ (show decode 6#32 = .ok .decode by decide)).trans
    (decodeResponse_of_legal (q := { cmd := 6, a := code.r0, b := 0, s := code.rs }) (by rw [hcode]; exact hs))
  rw [hcell, hcode]
  simp only [evenLane_interleave, oddLane_interleave]
  obtain ⟨hlatMin, hlatMax⟩ := latitude_contained hlat hs.2 hlatLt
  obtain ⟨hlonMin, hlonMax⟩ := longitude_contained hlon hs.2 hlonLt
  exact ⟨rfl, hlatMin, hlatMax, hlonMin, hlonMax⟩
end

section
/-! DECODE and DECODEC on every 64-bit code (R110 to R121). A lane may be at or above `2^step`, so a bound may lie far
outside the domain; the rounding of a bound and of a midpoint is bounded for all lanes, and is none on the longitude axis. -/

namespace Sys2Proof.Machine

/-! ## The two responses, by the step -/

section
variable {q : Request} {e : Failure}

/-- DECODE and DECODEC both report what the step test reports (R111, R160). -/
theorem decodeCell_of_stepFailure (k : ConstRegs) (h : givenCodeStepFailure q.s = some e) :
    decodeCell k (operandCode q) = .error e := by
  have hf : firstFailure [givenCodeStepFailure (operandCode q).step, domainFailure k] = some e := by
    rw [operandCode, operandStep, h, firstFailure_some]
  rw [decodeCell, guarded_error _ hf]

theorem decodeResponse_of_stepFailure (k : ConstRegs) (h : givenCodeStepFailure q.s = some e) :
    commandResponse .decode k q = failureResponse (failureCode e) := by
  rw [commandResponse, decodeResponse, decodeCell_of_stepFailure k h, respondWith_error, raiseFailure_eq]

theorem decodecResponse_of_stepFailure (k : ConstRegs) (h : givenCodeStepFailure q.s = some e) :
    commandResponse .decodec k q = failureResponse (failureCode e) := by
  rw [commandResponse, decodecResponse, decodeCell_of_stepFailure k h, respondWith_error, raiseFailure_eq]

theorem exists_stepFailure_of_illegal {step : Step} (h : ¬ LegalStep step) :
    ∃ e, givenCodeStepFailure step = some e := by
  rcases Nat.eq_zero_or_pos step.toNat with h0 | hpos
  · exact ⟨_, givenCodeStepFailure_of_zero h0⟩
  · exact ⟨_, givenCodeStepFailure_of_large (not_le.1 fun hle => h ⟨hpos, hle⟩)⟩

/-- DECODEC returns the midpoints of the Ranges that DECODE returns (R116, R121). -/
theorem decodecResponse_of_legal (hs : LegalStep q.s) :
    commandResponse .decodec hardwiredK q =
      { failureResponse 0 with
        r0 := midpoint ⟨(commandResponse .decode hardwiredK q).r0, (commandResponse .decode hardwiredK q).r1⟩
        r1 := midpoint ⟨(commandResponse .decode hardwiredK q).r2, (commandResponse .decode hardwiredK q).r3⟩ } := by
  have hf : firstFailure [givenCodeStepFailure (operandCode q).step, domainFailure hardwiredK] = none := by
    rw [operandCode, operandStep, givenCodeStepFailure_of_legal hs, domainFailure_hardwired]
    rfl
  rw [decodeResponse_of_legal hs, commandResponse, decodecResponse, decodeCell, guarded_ok _ hf, respondWith_ok]
  rfl

end

/-! ## The size of a bound and of a midpoint -/

/-- Rounding keeps a bound that is a whole number of at most 53 bits. -/
theorem NearestEven.abs_value_le {x : ℚ} {r : F64} (h : NearestEven x r) {b : ℕ} (hb : b ≤ 2 ^ 53) (hx : |x| ≤ b) :
    |f64Value r| ≤ b := by
  have hvalue : ∀ k : ℤ, |k| ≤ 2 ^ 53 → IsF64Value k := fun k hk => by
    simpa using isF64Value_div_two_pow (j := 0) hk (by omega)
  have hhi : IsF64Value (b : ℚ) := by exact_mod_cast hvalue b (by rw [Nat.abs_cast]; exact_mod_cast hb)
  have hlo : IsF64Value (-(b : ℚ)) := by exact_mod_cast hvalue (-b) (by rw [abs_neg, Nat.abs_cast]; exact_mod_cast hb)
  obtain ⟨hxlo, hxhi⟩ := abs_le.1 hx
  exact abs_le.2 ⟨h.le_value hlo hxlo, h.value_le hhi hxhi⟩

/-- A finite pattern of magnitude at most `b`. -/
def IsBounded (b : ℕ) (v : F64) : Prop := IsFinite v ∧ |f64Value v| ≤ b

theorem NearestEven.isBounded {x : ℚ} {r : F64} (h : NearestEven x r) {b : ℕ} (hb : b ≤ 2 ^ 53) (hx : |x| ≤ b) :
    IsBounded b r := ⟨h.1, h.abs_value_le hb hx⟩

/-- The largest distance of a bound from the minimum of its axis: `2^32` cells of step 1, on an axis of 360 degrees. -/
def farthestBound : ℕ := 2 ^ 31 * 360

section
variable {dmin dmax : F64} {half : ℚ} {n : ℕ} {step : Step}

/-- For every lane, a bound is the rounded product added to the minimum and rounded once more (R114). -/
theorem IsAxis.dequantizeBound_rounds (h : IsAxis dmin dmax half) (hs : LegalStep step) (hn : n ≤ 2 ^ 32) :
    ∃ p, NearestEven (n / 2 ^ step.toNat * (2 * half)) p ∧
      NearestEven (-half + f64Value p) (dequantizeBound n step dmin (fsub dmax dmin)) ∧
      |-half + f64Value p| ≤ farthestBound := by
  obtain ⟨hs1, hs32⟩ := hs
  have hhalf := h.half_le
  have hhalf0 := h.half_pos
  have hfar : (farthestBound : ℚ) = 2 ^ 31 * 360 := by norm_num [farthestBound]
  have hstep : (2 : ℚ) ≤ 2 ^ step.toNat := le_self_pow₀ one_le_two (by omega)
  have hn' : (n : ℚ) ≤ 2 ^ 32 := by exact_mod_cast hn
  have hratio : (n : ℚ) / 2 ^ step.toNat ≤ 2 ^ 31 := by
    rw [div_le_iff₀ (by positivity)]; linarith
  have hn53 : n < 2 ^ 53 := by omega
  have hprod0 : 0 ≤ (n : ℚ) / 2 ^ step.toNat * (2 * half) := by positivity
  have hprod : |(n : ℚ) / 2 ^ step.toNat * (2 * half)| ≤ farthestBound := by
    rw [abs_of_nonneg hprod0, hfar]
    exact mul_le_mul hratio (by linarith) (by linarith) (by norm_num)
  have hsmall : (farthestBound : ℚ) ≤ 2 ^ 64 := by rw [hfar]; norm_num
  have hmul := nearestEven_fmul (isFinite_of_viewOf (viewOf_ratio hn53 hs32)) h.span_finite
  rw [f64Value_ratio hn53 hs32, h.span_value] at hmul
  have hmul := hmul (abs_le_largestFinite (hprod.trans hsmall))
  have hp0 := hmul.le_value isF64Value_zero hprod0
  obtain ⟨-, hp⟩ := abs_le.1 (hmul.abs_value_le (by norm_num [farthestBound]) hprod)
  have hsum : |-half + f64Value (fmul (fdiv (natToF64 n) (pow2 step.toNat)) (fsub dmax dmin))| ≤ farthestBound :=
    abs_le.2 ⟨by rw [hfar]; linarith, by linarith⟩
  have hadd := nearestEven_fadd h.min_finite hmul.1
  rw [h.min_value] at hadd
  exact ⟨_, hmul, hadd (abs_le_largestFinite (hsum.trans hsmall)), hsum⟩

theorem IsAxis.dequantizeBound_bounded (h : IsAxis dmin dmax half) (hs : LegalStep step) (hn : n ≤ 2 ^ 32) :
    IsBounded farthestBound (dequantizeBound n step dmin (fsub dmax dmin)) := by
  obtain ⟨p, -, hadd, hle⟩ := h.dequantizeBound_rounds hs hn
  exact hadd.isBounded (by norm_num [farthestBound]) hle

end

/-- All four bounds that DECODE returns, whatever the code (R120). -/
theorem decode_bounded {q : Request} (hs : LegalStep q.s) :
    let cell := commandResponse .decode hardwiredK q
    (IsBounded farthestBound cell.r0 ∧ IsBounded farthestBound cell.r1) ∧
      IsBounded farthestBound cell.r2 ∧ IsBounded farthestBound cell.r3 := by
  have heven := (deinterleave q.a).even.isLt
  have hodd := (deinterleave q.a).odd.isLt
  rw [decodeResponse_of_legal hs]
  exact ⟨⟨isAxis_latitude.dequantizeBound_bounded hs heven.le, isAxis_latitude.dequantizeBound_bounded hs heven⟩,
    isAxis_longitude.dequantizeBound_bounded hs hodd.le, isAxis_longitude.dequantizeBound_bounded hs hodd⟩

theorem viewOf_two : viewOf two = .finite false (2 * 2 ^ (1074 - 0)) := by decide +kernel

theorem f64Value_two : f64Value two = 2 := by
  rw [f64Value_of_units (Nat.zero_le _) viewOf_two]
  norm_num [signedUnits]

section
variable {r : Range} {b : ℕ}

/-- A midpoint is the rounded sum, halved and rounded once more (R116). -/
theorem midpoint_rounds (hb : b ≤ 2 ^ 52) (hmin : IsBounded b r.min) (hmax : IsBounded b r.max) :
    ∃ sum, NearestEven (f64Value r.min + f64Value r.max) sum ∧ NearestEven (f64Value sum / 2) (midpoint r) ∧
      |f64Value sum / 2| ≤ b := by
  obtain ⟨hminFin, hmin⟩ := hmin
  obtain ⟨hmaxFin, hmax⟩ := hmax
  have hb' : (b : ℚ) ≤ 2 ^ 52 := by exact_mod_cast hb
  have hexact : |f64Value r.min + f64Value r.max| ≤ (2 * b : ℕ) := by
    push_cast
    linarith [abs_add_le (f64Value r.min) (f64Value r.max)]
  have hsum := nearestEven_fadd hminFin hmaxFin (abs_le_largestFinite (hexact.trans (by push_cast; linarith)))
  have hrounded := hsum.abs_value_le (by omega) hexact
  push_cast at hrounded
  have hhalf : |f64Value (fadd r.min r.max) / 2| ≤ b := by
    rw [abs_div, abs_two]; linarith
  have hdiv := nearestEven_fdiv hsum.1 (isFinite_of_viewOf viewOf_two) (by rw [f64Value_two]; norm_num)
  rw [f64Value_two] at hdiv
  exact ⟨_, hsum, hdiv (abs_le_largestFinite (hhalf.trans (by linarith))), hhalf⟩

theorem midpoint_bounded (hb : b ≤ 2 ^ 52) (hmin : IsBounded b r.min) (hmax : IsBounded b r.max) :
    IsBounded b (midpoint r) := by
  obtain ⟨_, -, hmid, hle⟩ := midpoint_rounds hb hmin hmax
  exact hmid.isBounded (by omega) hle

/-- Where the sum of the bounds fits a significand, the midpoint is exact. -/
theorem midpoint_exact {i k : ℤ} {j : ℕ} (hb : b ≤ 2 ^ 52) (hmin : IsBounded b r.min)
    (hmax : IsBounded b r.max) (hi : f64Value r.min = i / 2 ^ j) (hk : f64Value r.max = k / 2 ^ j)
    (hfits : |i + k| ≤ 2 ^ 53) (hj : j < 1074) :
    f64Value (midpoint r) = (f64Value r.min + f64Value r.max) / 2 := by
  obtain ⟨sum, hsum, hmid, -⟩ := midpoint_rounds hb hmin hmax
  have hexact : f64Value r.min + f64Value r.max = ((i + k : ℤ) : ℚ) / 2 ^ j := by
    rw [hi, hk, Int.cast_add, add_div]
  have hsumval : f64Value sum = f64Value r.min + f64Value r.max :=
    hsum.value_eq (hexact ▸ isF64Value_div_two_pow hfits hj.le)
  have hhalf : (f64Value r.min + f64Value r.max) / 2 = ((i + k : ℤ) : ℚ) / 2 ^ (j + 1) := by
    rw [hexact, pow_succ, div_div]
  rw [hsumval] at hmid
  exact hmid.value_eq (hhalf ▸ isF64Value_div_two_pow hfits hj)

end

/-! ## The longitude axis -/

/-- The longitude bound of lane `n` at step `s`, in units of `2^-s` degrees (R118). -/
def longitudeUnits (n s : ℕ) : ℤ := 360 * n - 180 * 2 ^ s

theorem abs_longitudeUnits_le {n s : ℕ} (hn : n ≤ 2 ^ 32) (hs : s ≤ 32) : |longitudeUnits n s| ≤ 2 ^ 42 := by
  have hpow : (2 : ℤ) ^ s ≤ 2 ^ 32 := pow_le_pow_right₀ one_le_two hs
  have hpos : (0 : ℤ) < 2 ^ s := by positivity
  rw [longitudeUnits, abs_le]
  omega

/-- For every lane the longitude bounds round nothing (R118). -/
theorem longitude_bound_units {n : ℕ} {step : Step} (hs : LegalStep step) (hn : n ≤ 2 ^ 32) :
    f64Value (dequantizeBound n step Config.lonMin (lonSpan hardwiredK)) =
      (longitudeUnits n step.toNat : ℚ) / 2 ^ step.toNat := by
  have hj : step.toNat ≤ 1074 := hs.2.trans (by omega)
  obtain ⟨p, hmul, hadd, -⟩ := isAxis_longitude.dequantizeBound_rounds hs hn
  have hprod : (n : ℚ) / 2 ^ step.toNat * (2 * 180) = ((360 * n : ℤ) : ℚ) / 2 ^ step.toNat := by push_cast; ring
  have hpval : f64Value p = ((360 * n : ℤ) : ℚ) / 2 ^ step.toNat := by
    rw [hprod] at hmul
    exact hmul.value_eq (isF64Value_div_two_pow (by rw [abs_le]; omega) hj)
  have hsum : (-180 : ℚ) + f64Value p = (longitudeUnits n step.toNat : ℚ) / 2 ^ step.toNat := by
    rw [hpval, longitudeUnits]; push_cast; field_simp; ring
  rw [hsum] at hadd
  exact hadd.value_eq (isF64Value_div_two_pow ((abs_longitudeUnits_le hn hs.2).trans (by norm_num)) hj)

/-! ## The corners -/

/-- Lane 0 adds a zero to the minimum. -/
theorem dequantizeBound_zero {step : Step} (dmin : F64) {dspan : F64} {mag : ℕ} (hs : step.toNat ≤ 32)
    (hspan : viewOf dspan = .finite false mag) : dequantizeBound 0 step dmin dspan = fadd dmin (pack false 0) := by
  have hzero : roundFields 0 unitsPerOne = 0 := by decide +kernel
  rw [dequantizeBound, fmul_finite (viewOf_ratio (by norm_num) hs) hspan, Nat.zero_mul, Nat.zero_mul, hzero]
  rfl

end Sys2Proof.Machine

open Sys2Proof Sys2Proof.Machine in
/-- Settles O44: rounding keeps the bound `2^31 * 360`, which is below `10^12`, through both additions and the halving. -/
theorem decodedValuesAreFinite : Obligations.DecodedValuesAreFinite := by
  intro q v hs cell centre hv
  obtain ⟨⟨h0, h1⟩, h2, h3⟩ := decode_bounded hs
  have hcentre : centre = _ := decodecResponse_of_legal hs
  have hfar : farthestBound ≤ 2 ^ 52 := by norm_num [farthestBound]
  have hbounded : IsBounded farthestBound v := by
    simp only [List.mem_cons, List.not_mem_nil, or_false] at hv
    rcases hv with rfl | rfl | rfl | rfl | rfl | rfl
    · exact h0
    · exact h1
    · exact h2
    · exact h3
    · rw [hcentre]; exact midpoint_bounded hfar h0 h1
    · rw [hcentre]; exact midpoint_bounded hfar h2 h3
  exact ⟨hbounded.1, hbounded.2.trans_lt (by norm_num [farthestBound])⟩

open Sys2Proof Sys2Proof.Machine in
/-- Settles O45: the bounds are `longitudeUnits` over `2^step`, and two of these add up without rounding. -/
theorem longitudeIsExact : Obligations.LongitudeIsExact := by
  intro q hs cell lon
  have hlt := (deinterleave q.a).odd.isLt
  have hcell : cell = _ := decodeResponse_of_legal hs
  have hmin : f64Value cell.r2 = (longitudeUnits (deinterleave q.a).odd.toNat q.s.toNat : ℚ) / 2 ^ q.s.toNat := by
    rw [hcell]; exact longitude_bound_units hs hlt.le
  have hmax : f64Value cell.r3 = (longitudeUnits ((deinterleave q.a).odd.toNat + 1) q.s.toNat : ℚ) / 2 ^ q.s.toNat := by
    rw [hcell]; exact longitude_bound_units hs hlt
  obtain ⟨-, hminBounded, hmaxBounded⟩ := decode_bounded hs
  have hfits : |longitudeUnits (deinterleave q.a).odd.toNat q.s.toNat +
      longitudeUnits ((deinterleave q.a).odd.toNat + 1) q.s.toNat| ≤ 2 ^ 53 :=
    (abs_add_le _ _).trans ((add_le_add (abs_longitudeUnits_le hlt.le hs.2) (abs_longitudeUnits_le hlt hs.2)).trans
      (by norm_num))
  refine ⟨?_, ?_, ?_, ?_⟩
  · rw [hmin, longitudeUnits]; push_cast; ring
  · rw [hmax, longitudeUnits]; push_cast; ring
  · rw [hmin, hmax, longitudeUnits, longitudeUnits]; push_cast; ring
  · rw [decodecResponse_of_legal hs]
    exact midpoint_exact (by norm_num [farthestBound]) hminBounded hmaxBounded hmin hmax hfits
      (hs.2.trans_lt (by omega))

open Sys2Proof Sys2Proof.Machine in
/-- Settles O43: the step decides between the cell and the two failures. -/
theorem decodeReturnsTheCell : Obligations.DecodeReturnsTheCell := by
  refine ⟨by decide, fun s p hk hp => ?_⟩
  have hexec := exec_answeredWith .decode hp
  rw [hk] at hexec ⊢
  refine ⟨fun hs => ?_, fun h0 => ?_, fun hl => ?_⟩
  · rwa [decodeResponse_of_legal hs] at hexec
  · rwa [decodeResponse_of_stepFailure _ (givenCodeStepFailure_of_zero h0)] at hexec
  · rwa [decodeResponse_of_stepFailure _ (givenCodeStepFailure_of_large hl)] at hexec

open Sys2Proof Sys2Proof.Machine in
/-- Settles O46: both lanes of code 0 are 0 at every step; the all-ones code at step 32 is one cell. -/
theorem cornerCellsMeetTheDomain : Obligations.CornerCellsMeetTheDomain := by
  refine ⟨fun q hs hcode => ?_, fun q hcode hstep => ?_⟩
  · have hlanes : (deinterleave q.a).even.toNat = 0 ∧ (deinterleave q.a).odd.toNat = 0 := by rw [hcode]; decide
    obtain ⟨heven, hodd⟩ := hlanes
    have hlatSpan : viewOf (latSpan hardwiredK) = .finite false (2 * 23378676262271 * 2 ^ (1074 - 38)) := by
      decide +kernel
    have hlonSpan : viewOf (lonSpan hardwiredK) = .finite false (2 * 180 * 2 ^ (1074 - 0)) := by decide +kernel
    rw [decodeResponse_of_legal hs]
    simp only [heven, hodd, dequantizeBound_zero _ hs.2 hlatSpan, dequantizeBound_zero _ hs.2 hlonSpan]
    exact ⟨rfl, by decide +kernel, by decide +kernel⟩
  · have hlegal : LegalStep q.s := by norm_num [LegalStep, hstep]
    rw [decodeResponse_of_legal hlegal, hcode, hstep]
    exact ⟨by decide +kernel, by decide +kernel⟩

open Sys2Proof Sys2Proof.Machine in
/-- Settles O47: DECODEC's midpoints are of DECODE's bounds, and the step test fails both commands alike. -/
theorem decodecReturnsTheMidpoint : Obligations.DecodecReturnsTheMidpoint := by
  refine ⟨by decide, fun s p hk hp => ?_⟩
  have hexec := exec_answeredWith .decodec hp
  rw [hk] at hexec ⊢
  refine ⟨fun hs => ⟨by rw [decodeResponse_of_legal hs]; rfl, ?_⟩, fun hs => ?_⟩
  · rwa [decodecResponse_of_legal hs] at hexec
  · obtain ⟨e, he⟩ := exists_stepFailure_of_illegal hs
    rw [decodecResponse_of_stepFailure _ he] at hexec
    rw [decodeResponse_of_stepFailure _ he]
    exact ⟨failureCode_ne_zero e, hexec⟩
end

section
/-! The lane moves (R125 to R132). A move adds one to a lane, or takes one from it, with one 64-bit operation on the whole
code: the other lane's positions are filled so that a carry passes through them unchanged, which makes the 64-bit addition
the lane's own. So a move shifts its lane modulo `2^s` and cuts both lanes to the window. -/

namespace Sys2Proof.Machine

/-! ## Adding one lane inside a slot -/

/-- Where exactly one of the two addends has a bit, the carry passes on as it came. -/
theorem carry_succ_of_filled {w j : Nat} {x y : BitVec w} (c : Bool) (h : x.getLsbD j = !y.getLsbD j) :
    BitVec.carry (j + 1) x y c = BitVec.carry j x y c := by
  rw [BitVec.carry_succ, h]
  cases y.getLsbD j <;> simp [Bool.atLeastTwo]

section
variable {x y : Slot} {a b : Lane} {p s i : Nat}

/-- The lane at the positions `2 * i + p` gets the carries of its own addition when the other positions are filled. -/
theorem carry_lane (hp : p < 2)
    (hlane : ∀ i < s, x.getLsbD (2 * i + p) = a.getLsbD i ∧ y.getLsbD (2 * i + p) = b.getLsbD i)
    (hfill : ∀ i < s, x.getLsbD (2 * i + (1 - p)) = !y.getLsbD (2 * i + (1 - p))) (c : Bool) (hi : i < s) :
    BitVec.carry (2 * i + p) x y c = BitVec.carry i a b c := by
  induction i with
  | zero =>
    obtain rfl | rfl : p = 0 ∨ p = 1 := by omega
    · simp
    · simpa using carry_succ_of_filled c (hfill 0 hi)
  | succ i ih =>
    have hlt : i < s := by omega
    obtain ⟨hx, hy⟩ := hlane i hlt
    have hown : BitVec.carry (2 * i + p + 1) x y c = BitVec.carry (i + 1) a b c := by
      rw [BitVec.carry_succ, BitVec.carry_succ, hx, hy, ih hlt]
    have hpass : x.getLsbD (2 * i + p + 1) = !y.getLsbD (2 * i + p + 1) := by
      obtain rfl | rfl : p = 0 ∨ p = 1 := by omega
      · exact hfill i hlt
      · exact hfill (i + 1) hi
    rw [← hown, ← carry_succ_of_filled c hpass]
    congr 1
    omega

theorem getLsbD_lane_add (hp : p < 2) (hs : s ≤ 32)
    (hlane : ∀ i < s, x.getLsbD (2 * i + p) = a.getLsbD i ∧ y.getLsbD (2 * i + p) = b.getLsbD i)
    (hfill : ∀ i < s, x.getLsbD (2 * i + (1 - p)) = !y.getLsbD (2 * i + (1 - p))) (c : Bool) (hi : i < s) :
    (x + y + (BitVec.ofBool c).setWidth 64).getLsbD (2 * i + p) =
      (a + b + (BitVec.ofBool c).setWidth 32).getLsbD i := by
  obtain ⟨hx, hy⟩ := hlane i hi
  rw [BitVec.getLsbD_add_add_bool (by omega), BitVec.getLsbD_add_add_bool (by omega), hx, hy,
    carry_lane hp hlane hfill c hi]

end

/-! ## One lane -/

/-- A lane moved by the sign of a direction, modulo `2^32` (R129, R131). -/
def shiftLane (a : Lane) (d : Int) : Lane := a + BitVec.ofInt 32 d.sign

/-- The low `s` bits of a lane. -/
def windowLane (s : Nat) (a : Lane) : Lane := BitVec.ofNat 32 (a.toNat % 2 ^ s)

@[simp] theorem shiftLane_zero (a : Lane) : shiftLane a 0 = a := by simp [shiftLane]

theorem shiftLane_of_pos (a : Lane) {d : Int} (h : 0 < d) : shiftLane a d = a + 1 := by
  rw [shiftLane, Int.sign_eq_one_of_pos h]; rfl

theorem shiftLane_of_neg (a : Lane) {d : Int} (h : d < 0) : shiftLane a d = a + BitVec.allOnes 32 := by
  rw [shiftLane, Int.sign_eq_neg_one_of_neg h]; rfl

theorem shiftLane_neg (a : Lane) (d : Int) : shiftLane (shiftLane a d) (-d) = a := by
  rw [shiftLane, shiftLane, Int.sign_neg, BitVec.ofInt_neg, BitVec.add_assoc, BitVec.add_right_neg, BitVec.add_zero]

/-- A move by one changes the lowest bit. -/
theorem shiftLane_getLsbD_zero (a : Lane) {d : Int} (h : d ≠ 0) : (shiftLane a d).getLsbD 0 = !a.getLsbD 0 := by
  rcases lt_or_gt_of_ne h with h | h
  · rw [shiftLane_of_neg a h, BitVec.getLsbD_add (by decide)]; simp
  · rw [shiftLane_of_pos a h, BitVec.getLsbD_add (by decide)]; simp

theorem getLsbD_windowLane (s : Nat) (a : Lane) (i : Nat) :
    (windowLane s a).getLsbD i = (decide (i < s) && a.getLsbD i) := by
  rw [windowLane, BitVec.getLsbD_ofNat, Nat.testBit_mod_two_pow, BitVec.testBit_toNat]
  by_cases h : i < 32
  · simp [h]
  · simp [BitVec.getLsbD_of_ge a i (by omega)]

theorem windowLane_toNat (s : Nat) (a : Lane) : (windowLane s a).toNat = a.toNat % 2 ^ s := by
  rw [windowLane, BitVec.toNat_ofNat, Nat.mod_eq_of_lt ((Nat.mod_le _ _).trans_lt a.isLt)]

theorem windowLane_toNat_lt (s : Nat) (a : Lane) : (windowLane s a).toNat < 2 ^ s := by
  rw [windowLane_toNat]; exact Nat.mod_lt _ (Nat.two_pow_pos s)

theorem windowLane_of_lt {s : Nat} {a : Lane} (h : a.toNat < 2 ^ s) : windowLane s a = a := by
  rw [windowLane, Nat.mod_eq_of_lt h, BitVec.ofNat_toNat, BitVec.setWidth_eq]

@[simp] theorem windowLane_windowLane (s : Nat) (a : Lane) : windowLane s (windowLane s a) = windowLane s a :=
  windowLane_of_lt (windowLane_toNat_lt s a)

/-- The window of a moved lane depends on the lane's window only. -/
theorem windowLane_shiftLane_windowLane {s : Nat} (hs : s ≤ 32) (a : Lane) (d : Int) :
    windowLane s (shiftLane (windowLane s a) d) = windowLane s (shiftLane a d) := by
  have hdvd : 2 ^ s ∣ 2 ^ 32 := pow_dvd_pow 2 hs
  refine BitVec.eq_of_toNat_eq ?_
  rw [windowLane_toNat, windowLane_toNat, shiftLane, shiftLane, BitVec.toNat_add, BitVec.toNat_add, windowLane_toNat,
    Nat.mod_mod_of_dvd _ hdvd, Nat.mod_mod_of_dvd _ hdvd, Nat.mod_add_mod]

theorem windowLane_shiftLane_ne {s : Nat} (hs : 1 ≤ s) (a : Lane) {d : Int} (hd : d ≠ 0) :
    windowLane s (shiftLane a d) ≠ windowLane s a := by
  intro heq
  have hbit : (windowLane s (shiftLane a d)).getLsbD 0 = (windowLane s a).getLsbD 0 := by rw [heq]
  rw [getLsbD_windowLane, getLsbD_windowLane, shiftLane_getLsbD_zero a hd,
    decide_eq_true (show 0 < s from hs)] at hbit
  exact Bool.not_ne_self _ hbit

/-- R129's formula for a lane moved by one, modulo `2^s`. -/
theorem windowLane_shiftLane_eq {s : Nat} (hs : s ≤ 32) (a : Lane) {d : Int} (h : d ≠ 0) :
    windowLane s (shiftLane a d) = BitVec.ofNat 32
      (if 0 < d then (a.toNat % 2 ^ s + 1) % 2 ^ s else (a.toNat % 2 ^ s + (2 ^ s - 1)) % 2 ^ s) := by
  have hdvd : 2 ^ s ∣ 2 ^ 32 := pow_dvd_pow 2 hs
  rw [windowLane, Nat.mod_add_mod, Nat.mod_add_mod]
  rcases lt_or_gt_of_ne h with h | h
  · have hones : 2 ^ 32 - 1 ≡ 2 ^ s - 1 [MOD 2 ^ s] := by
      have hpos : 1 ≤ 2 ^ s := Nat.two_pow_pos s
      refine Nat.ModEq.add_right_cancel' 1 ?_
      rw [Nat.sub_add_cancel hpos, Nat.sub_add_cancel (by decide)]
      exact (Nat.modEq_zero_iff_dvd.2 hdvd).trans (Nat.modEq_zero_iff_dvd.2 dvd_rfl).symm
    rw [shiftLane_of_neg a h, BitVec.toNat_add, BitVec.toNat_allOnes, Nat.mod_mod_of_dvd _ hdvd, if_neg h.not_gt,
      hones.add_left a.toNat]
  · rw [shiftLane_of_pos a h, BitVec.toNat_add, Nat.mod_mod_of_dvd _ hdvd, if_pos h]
    rfl

/-! ## One move of a code -/

/-- Upwards, the shared step is one addition with a carry in (R127). -/
theorem stepLane_of_pos (lane zz : Slot) {d : Int} (h : 0 < d) :
    stepLane lane zz d = lane + zz + (BitVec.ofBool true).setWidth 64 := by
  rw [stepLane, if_pos h, BitVec.add_assoc]; rfl

/-- Downwards, it is one addition of a complement (R127). -/
theorem stepLane_of_neg (lane zz : Slot) {d : Int} (h : d < 0) :
    stepLane lane zz d = (lane ||| zz) + ~~~zz + (BitVec.ofBool false).setWidth 64 := by
  have hnot : ~~~zz = -zz - 1 := BitVec.not_eq_neg_add zz
  rw [stepLane, if_neg h.not_gt, BitVec.sub_eq_add_neg, BitVec.neg_add, ← hnot]
  exact (BitVec.add_zero _).symm

/-- What both moves do to their own lane: with the lane at the positions `2 * i + p`, its windowed mask `own` and the other
lane's `other`, the shared step shifts the lane inside the window (R127 to R129). -/
theorem getLsbD_stepLane {bits own other : Slot} {a : Lane} {p s : Nat} {d : Int} (hp : p < 2) (hs : s ≤ 32)
    (hbits : ∀ i, a.getLsbD i = bits.getLsbD (2 * i + p))
    (hown : ∀ i, own.getLsbD (2 * i + p) = decide (i < s) ∧ own.getLsbD (2 * i + (1 - p)) = false)
    (hother : ∀ i, other.getLsbD (2 * i + p) = false ∧ other.getLsbD (2 * i + (1 - p)) = decide (i < s))
    (hd : d ≠ 0) (i : Nat) :
    (stepLane (bits &&& own) other d &&& own).getLsbD (2 * i + p) = (windowLane s (shiftLane a d)).getLsbD i := by
  rw [BitVec.getLsbD_and, (hown i).1, getLsbD_windowLane, Bool.and_comm]
  by_cases hi : i < s
  case neg => simp only [hi, decide_false, Bool.false_and]
  congr 1
  have hlane : ∀ i < s, (bits &&& own).getLsbD (2 * i + p) = a.getLsbD i := fun i hi => by
    rw [BitVec.getLsbD_and, (hown i).1, hbits, decide_eq_true hi, Bool.and_true]
  have hfree : ∀ i, (bits &&& own).getLsbD (2 * i + (1 - p)) = false := fun i => by
    rw [BitVec.getLsbD_and, (hown i).2, Bool.and_false]
  rcases lt_or_gt_of_ne hd with h | h
  · have hshift : shiftLane a d = a + BitVec.allOnes 32 + (BitVec.ofBool false).setWidth 32 :=
      (shiftLane_of_neg a h).trans (BitVec.add_zero _).symm
    rw [stepLane_of_neg _ _ h, hshift]
    refine getLsbD_lane_add hp hs (fun i hi => ⟨?_, ?_⟩) (fun i hi => ?_) false hi
    · rw [BitVec.getLsbD_or, hlane i hi, (hother i).1, Bool.or_false]
    · rw [BitVec.getLsbD_not, (hother i).1, BitVec.getLsbD_allOnes, decide_eq_true (show 2 * i + p < 64 by omega),
        decide_eq_true (hi.trans_le hs), Bool.not_false, Bool.and_true]
    · rw [BitVec.getLsbD_or, hfree, BitVec.getLsbD_not, (hother i).2, decide_eq_true hi,
        decide_eq_true (show 2 * i + (1 - p) < 64 by omega)]
      rfl
  · have hshift : shiftLane a d = a + 0#32 + (BitVec.ofBool true).setWidth 32 := by
      rw [shiftLane_of_pos a h, BitVec.add_zero]
      rfl
    rw [stepLane_of_pos _ _ h, hshift]
    refine getLsbD_lane_add hp hs (fun i hi => ⟨hlane i hi, ?_⟩) (fun i hi => ?_) true hi
    · rw [(hother i).1, BitVec.getLsbD_zero]
    · rw [hfree, (hother i).2, decide_eq_true hi, Bool.not_true]

/-- The window of `s` in the code of two lanes: both are cut to their low `s` bits (R125). -/
def windowCode (s : Nat) (even odd : Lane) : Slot := interleave (windowLane s even) (windowLane s odd)

section
variable {s : Nat} (hs : s ≤ 32) (bits : Slot) (i : Nat)
include hs

theorem getLsbD_evenWindow_even : (evenWindow s).getLsbD (2 * i) = decide (i < s) := by
  simp [getLsbD_evenWindow hs]

theorem getLsbD_evenWindow_odd : (evenWindow s).getLsbD (2 * i + 1) = false := by
  simp [getLsbD_evenWindow hs]

theorem getLsbD_oddWindow_even : (oddWindow s).getLsbD (2 * i) = false := by
  simp [getLsbD_oddWindow hs]

theorem getLsbD_oddWindow_odd : (oddWindow s).getLsbD (2 * i + 1) = decide (i < s) := by
  have h : 2 * i + 1 < 2 * s ↔ i < s := by omega
  simp [getLsbD_oddWindow hs, h]

/-- MOVE's "x" lane is the odd one (R127). -/
theorem moveX_eq {d : Int} (hd : d ≠ 0) :
    moveX bits s d = windowCode s (deinterleave bits).even (shiftLane (deinterleave bits).odd d) := by
  have hstep := getLsbD_stepLane (p := 1) (by decide) hs (getLsbD_oddLane bits)
    (fun i => ⟨getLsbD_oddWindow_odd hs i, getLsbD_oddWindow_even hs i⟩)
    (fun i => ⟨getLsbD_evenWindow_odd hs i, getLsbD_evenWindow_even hs i⟩) hd
  rw [moveX, if_neg hd, windowCode]
  refine eq_of_even_odd fun i => ⟨?_, ?_⟩
  · simp only [BitVec.getLsbD_or, BitVec.getLsbD_and, getLsbD_interleave_even, getLsbD_windowLane, getLsbD_evenLane,
      getLsbD_oddWindow_even hs, getLsbD_evenWindow_even hs, Bool.false_and, Bool.false_or, Bool.and_comm]
  · rw [BitVec.getLsbD_or, hstep i, BitVec.getLsbD_and, getLsbD_evenWindow_odd hs, getLsbD_interleave_odd, Bool.and_false,
      Bool.or_false]

/-- MOVE's "y" lane is the even one (R128). -/
theorem moveY_eq {d : Int} (hd : d ≠ 0) :
    moveY bits s d = windowCode s (shiftLane (deinterleave bits).even d) (deinterleave bits).odd := by
  have hstep := getLsbD_stepLane (p := 0) (by decide) hs (getLsbD_evenLane bits)
    (fun i => ⟨getLsbD_evenWindow_even hs i, getLsbD_evenWindow_odd hs i⟩)
    (fun i => ⟨getLsbD_oddWindow_even hs i, getLsbD_oddWindow_odd hs i⟩) hd
  rw [moveY, if_neg hd, windowCode]
  refine eq_of_even_odd fun i => ⟨?_, ?_⟩
  · rw [BitVec.getLsbD_or, ← Nat.add_zero (2 * i), hstep i, Nat.add_zero, BitVec.getLsbD_and, getLsbD_oddWindow_even hs,
      getLsbD_interleave_even, Bool.and_false, Bool.false_or]
  · simp only [BitVec.getLsbD_or, BitVec.getLsbD_and, getLsbD_interleave_odd, getLsbD_windowLane, getLsbD_oddLane,
      getLsbD_oddWindow_odd hs, getLsbD_evenWindow_odd hs, Bool.false_and, Bool.or_false, Bool.and_comm]

end

end Sys2Proof.Machine

open Sys2Proof.Machine in
/-- Settles O49: each move is `windowCode` of one shifted lane and the other. -/
theorem laneMovesAreModular : Obligations.LaneMovesAreModular := by
  refine ⟨fun bits s => ⟨moveX_zero bits s, moveY_zero bits s⟩, fun bits s d _ hs hd => ?_⟩
  intro even odd moved
  rw [moveX_eq hs bits hd, moveY_eq hs bits hd, windowCode, windowCode, windowLane_shiftLane_eq hs _ hd,
    windowLane_shiftLane_eq hs _ hd]
  exact ⟨rfl, rfl⟩
end

section
/-! Both lane moves of a code (R135 to R139): what MOVE and NEIGHBORS return, as the two lanes of a windowed code. -/

namespace Sys2Proof.Machine

/-! ## The code cut to its window -/

theorem evenLane_windowCode (s : Nat) (even odd : Lane) :
    (deinterleave (windowCode s even odd)).even = windowLane s even := evenLane_interleave _ _

theorem oddLane_windowCode (s : Nat) (even odd : Lane) :
    (deinterleave (windowCode s even odd)).odd = windowLane s odd := oddLane_interleave _ _

theorem windowCode_toNat_lt (s : Nat) (even odd : Lane) : (windowCode s even odd).toNat < 4 ^ s := by
  rw [toNat_lt_four_pow_iff, evenLane_windowCode, oddLane_windowCode]
  exact ⟨windowLane_toNat_lt s even, windowLane_toNat_lt s odd⟩

/-- The low `2s` bits of a code are the low `s` bits of its lanes. -/
theorem windowCode_lanes (bits : Slot) (s : Nat) :
    windowCode s (deinterleave bits).even (deinterleave bits).odd = BitVec.ofNat 64 (bits.toNat % 4 ^ s) := by
  have hbit : ∀ j, (BitVec.ofNat 64 (bits.toNat % 4 ^ s)).getLsbD j = (decide (j < 2 * s) && bits.getLsbD j) := by
    intro j
    rw [show 4 ^ s = 2 ^ (2 * s) from (Nat.pow_mul 2 2 s).symm, BitVec.getLsbD_ofNat, Nat.testBit_mod_two_pow,
      BitVec.testBit_toNat]
    by_cases h : j < 64
    · simp [h]
    · simp [BitVec.getLsbD_of_ge bits j (by omega)]
  refine eq_of_even_odd fun i => ?_
  have heven : 2 * i < 2 * s ↔ i < s := by omega
  have hodd : 2 * i + 1 < 2 * s ↔ i < s := by omega
  simp only [windowCode, getLsbD_interleave_even, getLsbD_interleave_odd, getLsbD_windowLane, getLsbD_evenLane,
    getLsbD_oddLane, hbit, heven, hodd, and_self]

theorem windowCode_of_lt {bits : Slot} {s : Nat} (h : bits.toNat < 4 ^ s) :
    windowCode s (deinterleave bits).even (deinterleave bits).odd = bits := by
  rw [windowCode_lanes, Nat.mod_eq_of_lt h, BitVec.ofNat_toNat, BitVec.setWidth_eq]

/-! ## Two moves -/

section
variable {s : Nat} (hs : s ≤ 32) {dirx diry : Int}
include hs

/-- On a windowed code a move shifts its lane, whatever the direction. -/
theorem moveX_windowCode (even odd : Lane) (d : Int) :
    moveX (windowCode s even odd) s d = windowCode s even (shiftLane odd d) := by
  by_cases hd : d = 0
  · rw [hd, moveX_zero, shiftLane_zero]
  · rw [moveX_eq hs _ hd, evenLane_windowCode, oddLane_windowCode, windowCode, windowCode, windowLane_windowLane,
      windowLane_shiftLane_windowLane hs]

theorem moveY_windowCode (even odd : Lane) (d : Int) :
    moveY (windowCode s even odd) s d = windowCode s (shiftLane even d) odd := by
  by_cases hd : d = 0
  · rw [hd, moveY_zero, shiftLane_zero]
  · rw [moveY_eq hs _ hd, evenLane_windowCode, oddLane_windowCode, windowCode, windowCode, windowLane_windowLane,
      windowLane_shiftLane_windowLane hs]

theorem moveY_moveX_comm (bits : Slot) (dirx diry : Int) :
    moveY (moveX bits s dirx) s diry = moveX (moveY bits s diry) s dirx := by
  by_cases hx : dirx = 0
  · rw [hx, moveX_zero, moveX_zero]
  by_cases hy : diry = 0
  · rw [hy, moveY_zero, moveY_zero]
  rw [moveX_eq hs bits hx, moveY_windowCode hs, moveY_eq hs bits hy, moveX_windowCode hs]

/-- A move that moves shifts both lanes inside the window (R129, R132). -/
theorem moveY_moveX_eq (bits : Slot) (h : dirx ≠ 0 ∨ diry ≠ 0) :
    moveY (moveX bits s dirx) s diry =
      windowCode s (shiftLane (deinterleave bits).even diry) (shiftLane (deinterleave bits).odd dirx) := by
  by_cases hx : dirx = 0
  · rw [hx, moveX_zero, moveY_eq hs bits (h.resolve_left (not_not.2 hx)), shiftLane_zero]
  · rw [moveX_eq hs bits hx, moveY_windowCode hs]

/-- The bits above the window are not read (R132). -/
theorem moveY_moveX_window (bits : Slot) (h : dirx ≠ 0 ∨ diry ≠ 0) :
    moveY (moveX (BitVec.ofNat 64 (bits.toNat % 4 ^ s)) s dirx) s diry = moveY (moveX bits s dirx) s diry := by
  rw [moveY_moveX_eq hs bits h, ← windowCode_lanes, moveX_windowCode hs, moveY_windowCode hs]

/-- The opposite move of a canonical code's neighbour is the code (R137). -/
theorem moveY_moveX_opposite {bits : Slot} (hbits : bits.toNat < 4 ^ s) {dirx' diry' : Int} (hx : dirx' = -dirx)
    (hy : diry' = -diry) : moveY (moveX (moveY (moveX bits s dirx) s diry) s dirx') s diry' = bits := by
  rw [hx, hy, ← windowCode_of_lt hbits, moveX_windowCode hs, moveY_windowCode hs, moveX_windowCode hs, moveY_windowCode hs,
    shiftLane_neg, shiftLane_neg]

/-- A move that moves leaves the window's cell. -/
theorem moveY_moveX_ne (hs1 : 1 ≤ s) (bits : Slot) (h : dirx ≠ 0 ∨ diry ≠ 0) :
    moveY (moveX bits s dirx) s diry ≠ BitVec.ofNat 64 (bits.toNat % 4 ^ s) := by
  rw [moveY_moveX_eq hs bits h, ← windowCode_lanes]
  intro heq
  have hlanes := congrArg deinterleave heq
  rcases h with hx | hy
  · have hodd := congrArg Lanes.odd hlanes
    rw [oddLane_windowCode, oddLane_windowCode] at hodd
    exact windowLane_shiftLane_ne hs1 _ hx hodd
  · have heven := congrArg Lanes.even hlanes
    rw [evenLane_windowCode, evenLane_windowCode] at heven
    exact windowLane_shiftLane_ne hs1 _ hy heven

end

/-! ## The responses -/

section
variable (k : ConstRegs) {q : Request} {dirx diry : Int}

theorem moveResponse_of_legal (hs : LegalStep q.s) :
    commandResponse (.move dirx diry) k q =
      { failureResponse 0 with r0 := moveY (moveX q.a q.s.toNat dirx) q.s.toNat diry, rs := q.s } := by
  have hf : firstFailure [givenCodeStepFailure (operandCode q).step] = none :=
    (firstFailure_singleton _).trans (givenCodeStepFailure_of_legal hs)
  rw [commandResponse, moveResponse, moveCode, guarded_ok _ hf, respondWith_ok]
  rfl

theorem moveResponse_of_stepFailure {e : Failure} (h : givenCodeStepFailure q.s = some e) :
    commandResponse (.move dirx diry) k q = failureResponse (failureCode e) := by
  have hf : firstFailure [givenCodeStepFailure (operandCode q).step] = some e := (firstFailure_singleton _).trans h
  rw [commandResponse, moveResponse, moveCode, guarded_error _ hf, respondWith_error, raiseFailure_eq]

/-- Each of the eight codes of NEIGHBORS is a move that moves (R136). -/
theorem exists_move_of_mem_neighbors (hs : LegalStep q.s) {v : Slot}
    (hv : v ∈ [(neighborsResponse k q).r0, (neighborsResponse k q).r1, (neighborsResponse k q).r2,
      (neighborsResponse k q).r3, (neighborsResponse k q).r4, (neighborsResponse k q).r5, (neighborsResponse k q).r6,
      (neighborsResponse k q).r7]) :
    ∃ dirx diry : Int, (dirx ≠ 0 ∨ diry ≠ 0) ∧ v = moveY (moveX q.a q.s.toNat dirx) q.s.toNat diry := by
  rw [neighborsResponse_of_legal k hs] at hv
  simp only [List.mem_cons, List.not_mem_nil, or_false] at hv
  rcases hv with rfl | rfl | rfl | rfl | rfl | rfl | rfl | rfl <;> exact ⟨_, _, by decide, rfl⟩

/-- NEIGHBORS reads the code's window only (R132). -/
theorem neighborsResponse_window (hs : LegalStep q.s) {q' : Request} (hs' : q'.s = q.s)
    (ha : q'.a = BitVec.ofNat 64 (q.a.toNat % 4 ^ q.s.toNat)) : neighborsResponse k q' = neighborsResponse k q := by
  have hmove : ∀ dirx diry : Int, dirx ≠ 0 ∨ diry ≠ 0 →
      moveLanes (operandCode q') dirx diry = moveLanes (operandCode q) dirx diry := by
    intro dirx diry hdir
    simp only [moveLanes, operandCode, operandStep, hs', ha]
    exact moveY_moveX_window hs.2 q.a hdir
  rw [neighborsResponse_of_legal k hs, neighborsResponse_of_legal k (hs' ▸ hs), hs', hmove 0 1 (by decide),
    hmove 0 (-1) (by decide), hmove 1 0 (by decide), hmove (-1) 0 (by decide), hmove 1 1 (by decide),
    hmove (-1) 1 (by decide), hmove 1 (-1) (by decide), hmove (-1) (-1) (by decide)]

end

theorem decode_encode_expandPseudo (p : Pseudo) : decode (encode (expandPseudo p)) = .ok (expandPseudo p) := by
  cases p <;> exact Laws.RoundTrip.move _ _ rfl

end Sys2Proof.Machine

open Sys2Proof Sys2Proof.Machine in
/-- Settles O50: the response of the word's MOVE, by the step. -/
theorem moveMovesTheLanes : Obligations.MoveMovesTheLanes := by
  intro dx dy hdx hdy
  refine ⟨by revert dx dy; decide, fun s p hp => ?_⟩
  have hexec := exec_answeredWith (.move dx.toInt dy.toInt) hp
  refine ⟨fun hs => ?_, fun h0 => ?_, fun hl => ?_⟩
  · rwa [moveResponse_of_legal s.k hs] at hexec
  · rwa [moveResponse_of_stepFailure s.k (givenCodeStepFailure_of_zero h0)] at hexec
  · rwa [moveResponse_of_stepFailure s.k (givenCodeStepFailure_of_large hl)] at hexec

open Sys2Proof.Machine in
/-- Settles O51: both orders shift the odd lane by one direction and the even lane by the other. -/
theorem laneMovesCommute : Obligations.LaneMovesCommute :=
  fun bits _ dirx diry _ hs => moveY_moveX_comm hs bits dirx diry

open Sys2Proof Sys2Proof.Machine in
/-- Settles O52: an axis move is one lane move, and the two lane moves commute (O51). -/
theorem diagonalsComposeAxisMoves : Obligations.DiagonalsComposeAxisMoves := by
  intro k bits b step hs move
  have hmove : ∀ (p : Pseudo) (dirx diry : Int), expandPseudo p = .move dirx diry →
      ∀ v, move p v = moveY (moveX v step.toNat dirx) step.toNat diry := by
    intro p dirx diry hp v
    refine respond_move_r0 k (q := { cmd := encode (expandPseudo p), a := v, b := b, s := step }) ?_ hs
    rw [decode_encode_expandPseudo, hp]
  simp only [hmove .north 0 1 rfl, hmove .south 0 (-1) rfl, hmove .east 1 0 rfl, hmove .west (-1) 0 rfl,
    hmove .northeast 1 1 rfl, hmove .northwest (-1) 1 rfl, hmove .southeast 1 (-1) rfl, hmove .southwest (-1) (-1) rfl,
    moveX_zero, moveY_zero, moveY_moveX_comm hs.2, and_self]

open Sys2Proof Sys2Proof.Machine in
/-- Settles O54: each round trip is a move followed by its opposite. -/
theorem neighborsAreSymmetric : Obligations.NeighborsAreSymmetric := by
  intro k bits b step hc of
  obtain ⟨hs, hbits⟩ := hc
  have hof : ∀ v, of v = _ := fun v =>
    (respond_of_decode k (q := { cmd := 9, a := v, b := b, s := step })
      (show decode 9#32 = .ok .neighbors by decide)).trans (neighborsResponse_of_legal k hs)
  simp only [hof, moveLanes, operandCode, operandStep]
  refine ⟨?_, ?_, ?_, ?_⟩ <;> exact moveY_moveX_opposite hs.2 hbits (by decide) (by decide)

open Sys2Proof.Machine in
/-- Settles O55: a move that moves gives a windowed code with another lane; MOVE 0, 0 moves neither. -/
theorem neighborsAreCanonicalAndOther : Obligations.NeighborsAreCanonicalAndOther := by
  intro k q v hs
  refine ⟨fun hv => ?_, (neighborsResponse_window k hs (by rfl) (by rfl)).symm, ?_⟩
  · obtain ⟨dirx, diry, hdir, rfl⟩ := exists_move_of_mem_neighbors k hs hv
    have hne := moveY_moveX_ne hs.2 hs.1 q.a hdir
    refine ⟨⟨hs, ?_⟩, fun heq => hne ?_⟩
    · rw [moveY_moveX_eq hs.2 q.a hdir]
      exact windowCode_toNat_lt _ _ _
    · rw [← heq, BitVec.ofNat_toNat, BitVec.setWidth_eq]
  · rw [moveResponse_of_legal k hs, moveX_zero, moveY_zero]
end

section
/-! The failures of 60_exceptions.md: a response reports `InvalidDomain` exactly when it is the first of its command's tests
to fail (R156, R160), the step failures divide by command (R154), and three commands have no test (R152). -/

namespace Sys2Proof.Machine

/-! ## The step and domain tests -/

theorem newCodeStepFailure_eq_none_iff {step : Step} : newCodeStepFailure step = none ↔ LegalStep step := by
  refine ⟨fun h => ?_, newCodeStepFailure_of_legal⟩
  by_contra hs
  simp [newCodeStepFailure_of_illegal hs] at h

theorem givenCodeStepFailure_eq_none_iff {step : Step} : givenCodeStepFailure step = none ↔ LegalStep step := by
  refine ⟨fun h => ?_, givenCodeStepFailure_of_legal⟩
  by_contra hs
  obtain ⟨e, he⟩ := exists_stepFailure_of_illegal hs
  simp [he] at h

theorem domainOk_iff (k : ConstRegs) :
    domainOk k = true ↔ fgt k.latMax k.latMin = true ∧ fgt k.lonMax k.lonMin = true := by
  simp [domainOk]

/-- Behind a step test and before tests of other kinds, the domain test is the one reported when the step passes and the
domain does not (R160). -/
theorem firstFailure_eq_invalidDomain_iff {stepTest : Option Failure} {rest : List (Option Failure)} (k : ConstRegs)
    (hstep : stepTest ≠ some .invalidDomain) (hrest : some .invalidDomain ∉ rest) :
    firstFailure (stepTest :: domainFailure k :: rest) = some .invalidDomain ↔
      stepTest = none ∧ ¬ domainOk k = true := by
  cases stepTest with
  | some e => simpa using hstep
  | none =>
    by_cases hk : domainOk k = true
    · simpa [domainFailure, hk] using mt firstFailure_mem hrest
    · simp [domainFailure, hk]

/-! ## The responses -/

section
variable {i : Instr} {q : Request} (k : ConstRegs)

/-- A guarded computation whose success writes status 0 has status 2 exactly when `InvalidDomain` is the failure reported. -/
theorem status_respondWith_guarded_eq_two_iff {α : Type} {tests : List (Option Failure)} {v : α} {write : α → Response}
    (hw : (write v).status = 0) :
    (respondWith (guarded tests v) write).status = 2 ↔ firstFailure tests = some .invalidDomain := by
  cases hf : firstFailure tests with
  | none => simp [guarded_ok v hf, hw]
  | some e =>
    have hcode : failureCode e = 2 ↔ e = .invalidDomain := ⟨fun h => failureCode_injective h, fun h => h ▸ rfl⟩
    simpa [guarded_error v hf, raiseFailure] using hcode

theorem firstFailure_newCodeTests_eq_invalidDomain_iff (step : Step) (lon lat : F64) :
    firstFailure [newCodeStepFailure step, domainFailure k, coordFailure k lon lat] = some .invalidDomain ↔
      LegalStep step ∧ ¬ domainOk k = true := by
  rw [← newCodeStepFailure_eq_none_iff]
  exact firstFailure_eq_invalidDomain_iff k (newCodeStepFailure_ne_invalidDomain step)
    (by simpa using (coordFailure_ne_invalidDomain k lon lat).symm)

theorem firstFailure_cellTests_eq_invalidDomain_iff (step : Step) :
    firstFailure [givenCodeStepFailure step, domainFailure k] = some .invalidDomain ↔
      LegalStep step ∧ ¬ domainOk k = true := by
  rw [← givenCodeStepFailure_eq_none_iff]
  exact firstFailure_eq_invalidDomain_iff k (givenCodeStepFailure_ne_invalidDomain step) List.not_mem_nil

/-- The commands that consume the domain report it behind their step test. -/
theorem status_eq_two_iff_of_consumesDomain (hi : i = .quant ∨ i = .encode ∨ i = .decode ∨ i = .decodec) :
    (commandResponse i k q).status = 2 ↔ LegalStep q.s ∧ ¬ domainOk k = true := by
  obtain rfl | rfl | rfl | rfl := hi
  · exact (status_respondWith_guarded_eq_two_iff rfl).trans
      (firstFailure_newCodeTests_eq_invalidDomain_iff k q.s q.a q.b)
  · exact (status_respondWith_guarded_eq_two_iff rfl).trans
      (firstFailure_newCodeTests_eq_invalidDomain_iff k q.s q.a q.b)
  · exact (status_respondWith_guarded_eq_two_iff rfl).trans (firstFailure_cellTests_eq_invalidDomain_iff k q.s)
  · exact (status_respondWith_guarded_eq_two_iff rfl).trans (firstFailure_cellTests_eq_invalidDomain_iff k q.s)

/-- RANGE, INTERLEAVE and DEINTERLEAVE test nothing (R152). -/
theorem status_eq_zero_of_untested (hi : i = .range ∨ i = .interleave ∨ i = .deinterleave) :
    (commandResponse i k q).status = 0 := by
  obtain rfl | rfl | rfl := hi <;> rfl

/-- The other commands test a step or nothing. -/
theorem status_ne_two_of_domainFree (hi : ¬ (i = .quant ∨ i = .encode ∨ i = .decode ∨ i = .decodec)) :
    (commandResponse i k q).status ≠ 2 := by
  cases i with
  | quant | encode | decode | decodec => simp at hi
  | range | interleave | deinterleave => simp [status_eq_zero_of_untested]
  | move dirx diry => exact (respondWith_guarded_safe rfl (invalidDomain_notMem_moveTests q.s)).2
  | neighbors => exact (respondWith_guarded_safe rfl (invalidDomain_notMem_moveTests q.s)).2

/-- The commands that are given a code report what its step test reports (R154). -/
theorem commandResponse_of_stepFailure {e : Failure}
    (hi : i = .decode ∨ i = .decodec ∨ i = .neighbors ∨ ∃ dirx diry, i = .move dirx diry)
    (h : givenCodeStepFailure q.s = some e) : commandResponse i k q = failureResponse (failureCode e) := by
  obtain rfl | rfl | rfl | ⟨dirx, diry, rfl⟩ := hi
  · exact decodeResponse_of_stepFailure k h
  · exact decodecResponse_of_stepFailure k h
  · exact neighborsResponse_of_failure k h
  · exact moveResponse_of_stepFailure k h

end

/-! ## Every outcome is a next state -/

theorem exec_exists_next (i : Instr) (s : State) : ∃ t, exec i s = .next t := by
  rw [exec_eq_answer]
  obtain ⟨_, h⟩ | ⟨p, _, h⟩ := answer_cases s (commandResponse i) <;> exact ⟨_, h⟩

theorem step_exists_next (s : State) : ∃ t, step s = .next t := by
  cases hs : s.inService with
  | none => exact ⟨_, step_of_no_request hs⟩
  | some p =>
    cases hw : p.wait with
    | zero => exact ⟨_, step_of_serving ⟨hs, hw⟩⟩
    | succ n => exact ⟨_, step_of_waiting hs hw⟩

end Sys2Proof.Machine

open Sys2Proof.Machine in
/-- Settles O24: `InvalidDomain` is the status exactly when a command's tests hold the domain test and it fails first. -/
theorem degenerateDomainIsReported : Obligations.DegenerateDomainIsReported := by
  refine ⟨fun i k q => ?_, fun q => (respond_safe q).2⟩
  rw [← domainOk_iff]
  by_cases hi : i = .quant ∨ i = .encode ∨ i = .decode ∨ i = .decodec
  · exact (status_eq_two_iff_of_consumesDomain k hi).trans (and_iff_right hi).symm
  · exact iff_of_false (status_ne_two_of_domainFree k hi) fun h => hi h.1

open Sys2Proof.Machine in
/-- Settles O8: a step accepts, waits or answers, and a command answers or leaves an idle engine as it is. -/
theorem engineNeverStops : Obligations.EngineNeverStops := ⟨step_exists_next, exec_exists_next⟩

open Sys2Proof.Machine in
/-- Settles O23: the two step tests, each with the response of the failure it reports. -/
theorem stepFailuresByCommand : Obligations.StepFailuresByCommand := by
  intro i s p hp
  have h := exec_answeredWith i hp
  refine ⟨fun hi hs => ?_, fun hi => ⟨fun h0 => ?_, fun hl => ?_⟩⟩
  · rwa [commandResponse_of_illegalStep hi hs] at h
  · rwa [commandResponse_of_stepFailure s.k hi (givenCodeStepFailure_of_zero h0)] at h
  · rwa [commandResponse_of_stepFailure s.k hi (givenCodeStepFailure_of_large hl)] at h

open Sys2Proof.Machine in
/-- Settles O26: the one response each of the three delivers has status 0. -/
theorem commandsThatCannotFail : Obligations.CommandsThatCannotFail := by
  intro i s p hi hp
  obtain ⟨t, hnext, hanswered⟩ := exec_answeredWith i hp
  exact ⟨_, t, hnext, hanswered, status_eq_zero_of_untested s.k hi⟩
end

section
/-! Reset and the drained engine (70_reset_and_hazards.md): each step takes one from the work left, so the queue empties in
that many steps with the responses owed unchanged; a state owing nothing to anyone holds no request and no response. -/

namespace Sys2Proof.Machine

variable {s : State}

/-! ## The work left -/

theorem workLeft_eq_zero_iff : workLeft s = 0 ↔ s.issued = [] ∧ s.inService = none := by
  cases hs : s.inService <;> cases hi : s.issued <;> simp [workLeft, hs, hi]

/-- A step does one unit of the work left, if there is any (R182). -/
theorem workLeft_afterStep (s : State) : workLeft s.afterStep = workLeft s - 1 := by
  obtain ⟨hs, h⟩ | ⟨p, n, hs, hw, h⟩ | ⟨p, ⟨hs, hw⟩, h⟩ := afterStep_cases s
  · cases hi : s.issued with
    | nil => rw [h, acceptNext_of_idle s hi, workLeft_eq_zero_iff.2 ⟨hi, hs⟩]
    | cons w rest => simp [h, acceptNext_of_issued s w rest hi, workLeft, hs, hi]
  · simp [h, workLeft, hs, hw]
  · simp [h, workLeft, hs, hw]

/-- The machine's run goes on from the state after its first step. -/
theorem run_core_succ (n : Nat) (s : State) :
    Host.Core.run Sys2Proof.core (n + 1) s = Host.Core.run Sys2Proof.core n s.afterStep := by
  obtain ⟨t, h⟩ := step_exists_next s
  have hcore : Host.Core.step Sys2Proof.core s = .next t := h
  rw [afterStep_of_next h]
  simp only [Host.Core.run, hcore]

/-! ## A state owing nothing -/

theorem owed_eq_nil_iff {requester : Nat} :
    owed requester s = [] ↔ (∀ a ∈ s.responses, a.requester ≠ requester) ∧
      (∀ p ∈ s.inService, p.requester ≠ requester) ∧ (∀ w ∈ s.issued, w.requester ≠ requester) := by
  simp [owed, isFor]

/-- Every request and every response has a requester, to whom it is owed. -/
theorem empty_of_owed_eq_nil (h : ∀ requester, owed requester s = []) :
    s.issued = [] ∧ s.inService = none ∧ s.responses = [] := by
  refine ⟨List.eq_nil_iff_forall_not_mem.2 fun w hw => ?_, Option.eq_none_iff_forall_not_mem.2 fun p hp => ?_,
    List.eq_nil_iff_forall_not_mem.2 fun a ha => ?_⟩
  · obtain ⟨-, -, hissued⟩ := owed_eq_nil_iff.1 (h w.requester)
    exact hissued w hw rfl
  · obtain ⟨-, hinService, -⟩ := owed_eq_nil_iff.1 (h p.requester)
    exact hinService p hp rfl
  · obtain ⟨hresponses, -, -⟩ := owed_eq_nil_iff.1 (h a.requester)
    exact hresponses a ha rfl

@[simp] theorem owed_reset (requester : Nat) : owed requester State.reset = [] := rfl

end Sys2Proof.Machine

open Sys2Proof.Machine in
/-- Settles O15, by induction on the work left: each step does one unit of it and keeps what is owed. -/
theorem everyRequestIsAnswered : Obligations.EveryRequestIsAnswered := by
  intro s
  induction hn : workLeft s generalizing s with
  | zero =>
    obtain ⟨hissued, hinService⟩ := workLeft_eq_zero_iff.1 hn
    exact ⟨s, rfl, hissued, hinService, rfl, fun _ => rfl⟩
  | succ n ih =>
    have hleft : workLeft s.afterStep = n := by rw [workLeft_afterStep, hn, Nat.add_sub_cancel]
    obtain ⟨t, hrun, hissued, hinService, hk, howed⟩ := ih s.afterStep hleft
    exact ⟨t, (run_core_succ n s).trans hrun, hissued, hinService, hk.trans (afterMove_k s .engine (by simp)),
      fun requester => (howed requester).trans (owed_afterStep requester s)⟩

open Sys2Proof.Machine in
/-- Settles O17: safety fixes the constants, and owing nothing empties the rest of the state. -/
theorem drainedEngineIsAsAfterReset : Obligations.DrainedEngineIsAsAfterReset := by
  rintro ⟨k, issued, inService, responses⟩ ⟨hk, -⟩ hnone
  obtain ⟨hissued, hinService, hresponses⟩ := empty_of_owed_eq_nil hnone
  simp only at hk hissued hinService hresponses
  rw [hk, hissued, hinService, hresponses, State.reset]

open Sys2Proof.Machine in
/-- Settles O16: reset owes nothing, and issuing a request adds the constants' response to it. -/
theorem resetDiscardsRequests : Obligations.ResetDiscardsRequests :=
  ⟨fun _ => owed_reset, fun _ => rfl, fun s requester q =>
    ⟨owed_issue_same requester State.reset q, fun hk => hk ▸ owed_issue_same requester s q⟩⟩
end

section
/-! The two responses of ENCODE with `R0 = 0` (R179): a failure, which reads as the empty code, and the bottom corner of the
domain, whose offsets are zero. -/

namespace Sys2Proof.Machine

/-- An ENCODE that does not succeed returns one of the failure responses. -/
theorem exists_failure_of_encode {k : ConstRegs} {q : Request} (h : (commandResponse .encode k q).status ≠ 0) :
    ∃ e, commandResponse .encode k q = failureResponse (failureCode e) := by
  cases hq : quantize k q.a q.b q.s with
  | ok lanes => exact absurd (status_of_quantize_ok (.inr rfl) hq) h
  | error e => exact ⟨e, commandResponse_of_quantize_error (.inr rfl) hq⟩

/-- DECODE of step 0 answers `EmptyCode`, whatever the code (R111). -/
theorem respond_decode_emptyCode (k : ConstRegs) (a b : Slot) :
    respond k { cmd := 6, a := a, b := b, s := 0 } = failureResponse 4 := by
  have hd : Sys2Proof.decode 6#32 = .ok .decode := by decide
  rw [respond_of_decode k hd]
  exact decodeResponse_of_stepFailure k (givenCodeStepFailure_of_zero rfl)

/-- A zero offset is in lane 0 at every step. -/
theorem floorLane_scaled_zero {s : Nat} (hs : s ≤ 32) : floorLane (fmul 0#64 (pow2 s)) = 0#32 := by
  have hzero : viewOf 0#64 = .finite false 0 := by decide
  rw [fmul_finite hzero (viewOf_pow2 hs), Nat.zero_mul]
  decide +kernel

theorem bottomCorner_inDomain : InDomain hardwiredK Config.lonMin Config.latMin := by
  unfold InDomain; decide +kernel

/-- Both offsets of the bottom corner are zero. -/
theorem hardwiredLanes_bottomCorner {step : Step} (cmd : CommandWord) (hs : LegalStep step) :
    hardwiredLanes { cmd := cmd, a := Config.lonMin, b := Config.latMin, s := step } = { even := 0, odd := 0 } := by
  have hlat : offset Config.latMin Config.latMin (latSpan hardwiredK) = 0#64 := by decide +kernel
  have hlon : offset Config.lonMin Config.lonMin (lonSpan hardwiredK) = 0#64 := by decide +kernel
  simp only [hardwiredLanes, quantizeAxis, scaled, hlat, hlon, floorLane_scaled_zero hs.2]
  rfl

end Sys2Proof.Machine

open Sys2Proof Sys2Proof.Machine in
/-- Settles O42: a failed ENCODE returns step 0, which DECODE reports; both lanes of the bottom corner are 0. -/
theorem failedEncodeReadsAsTheEmptyCode : Obligations.FailedEncodeReadsAsTheEmptyCode := by
  refine ⟨fun k q b hfail => ?_, fun step cmd hs => ?_⟩
  · obtain ⟨e, he⟩ := exists_failure_of_encode hfail
    rw [he]
    exact ⟨rfl, rfl, respond_decode_emptyCode k 0 b⟩
  · have hencode := encodeResponse_eq_of_inDomain
      (q := { cmd := cmd, a := Config.lonMin, b := Config.latMin, s := step }) hs bottomCorner_inDomain
    rw [hardwiredLanes_bottomCorner cmd hs] at hencode
    have hcode : interleave 0 0 = 0 := by decide
    rwa [hcode] at hencode
end

section
/-! The decoder and the encoder are inverse (R50 to R58): a word is its fields, a decoded word has the fields of its
instruction, and the well-formed instructions are seventeen. -/

namespace Sys2Proof

variable {w : CommandWord}

/-! ## A word is its fields (R51, R52) -/

theorem zeroFieldG_append_opcodeField (w : CommandWord) : zeroFieldG w ++ opcodeField w = w :=
  calc zeroFieldG w ++ opcodeField w
    _ = w.extractLsb' 0 32 := BitVec.extractLsb'_append_extractLsb'_eq_extractLsb' rfl
    _ = w := BitVec.extractLsb'_eq_self

/-- The fields of format M above the opcode are the `zero` field of format G, split. -/
theorem zeroFieldM_append_directionFields (w : CommandWord) : zeroFieldM w ++ dyField w ++ dxField w = zeroFieldG w :=
  calc zeroFieldM w ++ dyField w ++ dxField w
    _ = w.extractLsb' 10 22 ++ dxField w :=
      congrArg (· ++ dxField w) (BitVec.extractLsb'_append_extractLsb'_eq_extractLsb' rfl)
    _ = zeroFieldG w := BitVec.extractLsb'_append_extractLsb'_eq_extractLsb' rfl

/-! ## What a field stands for (R53, R54) -/

/-- A row of format G holds a well-formed instruction with the row's opcode and no field. -/
theorem formatGCommand_eq_some {op : BitVec 8} {i : Instr} (h : formatGCommand op = some i) :
    i.wellFormed = true ∧ opcodeOf i = op ∧ upperBits i = 0#24 := by
  have hrows : ∀ row ∈ formatGRows, row.2.wellFormed = true ∧ opcodeOf row.2 = row.1 ∧ upperBits row.2 = 0 := by decide
  obtain ⟨row, hfind, rfl⟩ := Option.map_eq_some_iff.1 h
  have hop : row.1 = op := by simpa using List.find?_some hfind
  exact hop ▸ hrows row (List.mem_of_find?_eq_some hfind)

/-- A direction that a field expresses is legal, and the field is its encoding. -/
theorem directionOf_eq_some {f : BitVec 2} {d : Int} (h : directionOf f = some d) :
    legalDirection d = true ∧ directionField d = f := by
  have hf : f ≠ 0b10#2 := by rintro rfl; cases h
  have hd : d = f.toInt := by simpa [directionOf, hf] using h.symm
  subst hd
  clear h
  revert f
  decide

/-! ## What a decoded word is -/

/-- The two ways a word has a command: a row of format G with `zero` 0, or MOVE with `zero` 0 and both directions legal. -/
theorem decode_eq_ok {i : Instr} (h : decode w = .ok i) :
    (formatGCommand (opcodeField w) = some i ∧ zeroFieldG w = 0#24) ∨
    (opcodeField w = moveOpcode ∧ zeroFieldM w = 0#20 ∧ ∃ dirx diry, directionOf (dxField w) = some dirx ∧
      directionOf (dyField w) = some diry ∧ i = .move dirx diry) := by
  unfold decode at h
  split at h
  next j hg =>
    split at h
    next hz => exact .inl ⟨hg.trans (congrArg some (Except.ok.inj h)), hz⟩
    next => cases h
  next =>
    split at h
    next hm =>
      split at h
      next hz =>
        split at h
        next dirx diry hx hy => exact .inr ⟨hm, hz, dirx, diry, hx, hy, (Except.ok.inj h).symm⟩
        next => cases h
      next => cases h
    next => cases h

theorem decode_encode {i : Instr} (h : i.wellFormed = true) : decode (encode i) = .ok i := by
  cases i with
  | range => exact Laws.RoundTrip.range h
  | interleave => exact Laws.RoundTrip.interleave h
  | deinterleave => exact Laws.RoundTrip.deinterleave h
  | quant => exact Laws.RoundTrip.quant h
  | encode => exact Laws.RoundTrip.encode h
  | decode => exact Laws.RoundTrip.decode h
  | decodec => exact Laws.RoundTrip.decodec h
  | move dirx diry => exact Laws.RoundTrip.move dirx diry h
  | neighbors => exact Laws.RoundTrip.neighbors h

theorem wellFormed_and_encode_of_decode {i : Instr} (h : decode w = .ok i) : i.wellFormed = true ∧ encode i = w := by
  rcases decode_eq_ok h with ⟨hg, hz⟩ | ⟨hm, hz, dirx, diry, hx, hy, rfl⟩
  · obtain ⟨hwf, hop, hup⟩ := formatGCommand_eq_some hg
    refine ⟨hwf, ?_⟩
    rw [encode, hup, hop, ← hz, zeroFieldG_append_opcodeField]
  · obtain ⟨hlx, hfx⟩ := directionOf_eq_some hx
    obtain ⟨hly, hfy⟩ := directionOf_eq_some hy
    have hup : upperBits (.move dirx diry) = zeroFieldG w := by
      rw [upperBits, hfx, hfy, ← hz, zeroFieldM_append_directionFields]
    refine ⟨by rw [Instr.wellFormed, hlx, hly]; rfl, ?_⟩
    rw [encode, hup, opcodeOf, ← hm, zeroFieldG_append_opcodeField]

/-- The words with a command are the encodings of the well-formed instructions. -/
theorem exists_decode_iff_encoding : (∃ i, decode w = .ok i) ↔ ∃ i : Instr, i.wellFormed = true ∧ encode i = w :=
  ⟨fun ⟨i, h⟩ => ⟨i, wellFormed_and_encode_of_decode h⟩, fun ⟨i, hwf, hw⟩ => ⟨i, hw ▸ decode_encode hwf⟩⟩

/-! ## The well-formed instructions -/

/-- The directions a field expresses (R54). -/
def legalDirections : List Int := [0, 1, -1]

theorem mem_legalDirections {d : Int} : d ∈ legalDirections ↔ legalDirection d = true := by
  simp [legalDirections, legalDirection, or_assoc]

/-- The eight commands of format G and the nine MOVEs: the seventeen commands that R58 counts. -/
def wellFormedInstrs : List Instr :=
  [.range, .interleave, .deinterleave, .quant, .encode, .decode, .decodec, .neighbors] ++
    legalDirections.flatMap fun diry => legalDirections.map fun dirx => .move dirx diry

theorem mem_wellFormedInstrs {i : Instr} : i ∈ wellFormedInstrs ↔ i.wellFormed = true := by
  cases i with
  | move dirx diry => simp [wellFormedInstrs, Instr.wellFormed, mem_legalDirections, and_comm]
  | _ => simp [wellFormedInstrs, Instr.wellFormed]

theorem exists_decode_iff_mem : (∃ i, decode w = .ok i) ↔ w ∈ wellFormedInstrs.map encode := by
  simp only [exists_decode_iff_encoding, List.mem_map, mem_wellFormedInstrs]

end Sys2Proof

open Sys2Proof in
/-- Settles O2, by the constructors of the instruction. -/
theorem decodeOfEncodeIsTheInstruction : Obligations.DecodeOfEncodeIsTheInstruction := fun _ h => decode_encode h

open Sys2Proof in
/-- Settles O3: the fields of a decoded word are those of its instruction, and a word is its fields. -/
theorem decodedWordIsTheEncoding : Obligations.DecodedWordIsTheEncoding :=
  fun _ _ h => wellFormed_and_encode_of_decode h

open Sys2Proof in
/-- Settles O5: the words with a command are the encodings of the well-formed instructions, which are seventeen. -/
theorem seventeenWordsHaveACommand : Obligations.SeventeenWordsHaveACommand := by
  intro w
  rw [exists_decode_iff_mem]
  have hwords : wellFormedInstrs.map encode = [0x001#32, 0x002#32, 0x003#32, 0x004#32, 0x005#32, 0x006#32, 0x007#32,
      0x009#32, 0x008#32, 0x108#32, 0x308#32, 0x408#32, 0x508#32, 0x708#32, 0xC08#32, 0xD08#32, 0xF08#32] := by decide
  rw [hwords]
end
